-- ==== Sys2Proof/Word.lean ====
section
/-! DEFINITION. The two widths the block is made of (spec/00_scope.md R4, spec/30_encoding.md R60). -/

namespace Sys2Proof

/-- A datum, a storage cell, a data register: 8 bits (spec/10_state.md R12). -/
abbrev Byte := BitVec 8

/-- A command word or a response word: 16 bits (spec/30_encoding.md R60, R66). -/
abbrev Word := BitVec 16

end Sys2Proof
end

