-- ==== Sys2Proof/Config.lean ====
section
/-! DEFINITION. What the environment fixes for a run (spec/00_scope.md R1), who takes a step (R3), and the one free value. -/

namespace Sys2Proof

/-- The parameters of rule R1. They are configuration of a run: no step writes them (log entry 1). -/
structure Params where
  /-- `C`, the capacity in bytes of each of the two buffers. -/
  capacity : Nat
  /-- `LINE_TERM`, the byte sequence WRITE_LINE appends. -/
  lineTerm : List Byte
  /-- `READ_TERM`, the byte READ_LINE appends. -/
  readTerm : Byte
  deriving DecidableEq, Repr

/-- `CW = max(1, ceil(log2 C))`, the cursor width in bits (R1, decision D3). -/
def Params.cursorWidth (p : Params) : Nat := max 1 (Nat.clog 2 p.capacity)

/-- `NW = ceil(log2 (C + 1))`, the count width in bits (R1, decision D3). -/
def Params.countWidth (p : Params) : Nat := Nat.clog 2 (p.capacity + 1)

/-- The five agents of rule R3. -/
inductive Agent where
  | normal  -- NORMAL, normal program flow
  | rxh     -- RXH, the receive-complete handler
  | txh     -- TXH, the transmit-register-empty handler
  | wireRx  -- WIRE_RX, the line delivering a byte
  | wireTx  -- WIRE_TX, the transmitter taking a byte
  deriving DecidableEq, Repr

/-- The agents in the order of rule R3; the order decides nothing about who steps. -/
def Agent.all : List Agent := [.normal, .rxh, .txh, .wireRx, .wireTx]

/-- DESIGN CHOICE: the capacity `State.reset` stands at. The source gives no single value ("e.g. 64 or 128"); every
statement holds for every legal capacity (log entry 2). -/
def Config.resetCapacity : Nat := 64

/-- The default parameters: `LINE_TERM` line feed then carriage return (R2), `READ_TERM` zero (R1). -/
def Config.defaultParams : Params :=
  { capacity := Config.resetCapacity, lineTerm := [0x0A#8, 0x0D#8], readTerm := 0x00#8 }

/-- FREE VALUE (log entry 5). Which enabled agent steps next is left open (spec/20_memory.md R47): when the schedule
held in the state has run out, round `k` of the run offers turns to the agents of this list, of which nothing is known. -/
opaque Config.freeTurns : Nat → List Agent

end Sys2Proof
end

