-- ==== Sys2Proof/Syntax.lean ====
section
/-! DEFINITION. The command set: one constructor per row of spec/opcode_table.json (spec/30_encoding.md R62, R69). -/

namespace Sys2Proof

/-- The direction selector, exactly two values (spec/10_state.md R10, spec/30_encoding.md R61). -/
inductive Direction where
  | receive   -- d = 0
  | transmit  -- d = 1
  deriving DecidableEq, Repr

/-- The numbering of decision D4: Receive is 0, Transmit is 1. -/
def Direction.bit : Direction → BitVec 1
  | .receive => 0#1
  | .transmit => 1#1

/-- `TransportConfig` (spec/10_state.md R29): four one-bit fields, a plain value and not state. -/
structure TransportConfig where
  txEnable : Bool
  rxEnable : Bool
  rxCallback : Bool
  txCallback : Bool
  deriving DecidableEq, Repr

/-- The commands. -/
inductive Instr where
  | cbInit (d : Direction)                 -- CB_INIT d          R81
  | push (d : Direction) (b : Byte)        -- PUSH d, b          R83
  | pop (d : Direction)                    -- POP d              R85
  | len (d : Direction)                    -- LEN d              R87
  | isFull (d : Direction)                 -- IS_FULL d          R88
  | isEmpty (d : Direction)                -- IS_EMPTY d         R89
  | setEvent (d : Direction) (en : Bool)   -- SET_EVENT d, en    R91
  | initTransport (cfg : TransportConfig)  -- INITIALIZE cfg     R102
  | writeByte (b : Byte)                   -- WRITE_BYTE b       R105
  | writeLine (n : Byte)                   -- WRITE_LINE n       R108 (its n payload words are operand words of the stream)
  | readByte                               -- READ_BYTE          R111
  | readLine (m : Byte)                    -- READ_LINE m        R113
  | gieClr                                 -- GIE_CLR            R115
  | gieSet                                 -- GIE_SET            R116
  | payload (b : Byte)                     -- PAYLOAD b          R109
  deriving DecidableEq, Repr

/-- How many operand words follow the command's first word (spec/30_encoding.md R63). -/
def Instr.operandWords : Instr → Nat
  | .writeLine n => n.toNat
  | .cbInit _ | .push _ _ | .pop _ | .len _ | .isFull _ | .isEmpty _ | .setEvent _ _ | .initTransport _
  | .writeByte _ | .readByte | .readLine _ | .gieClr | .gieSet | .payload _ => 0

/-- The command's length in words: `1 + n` for WRITE_LINE, otherwise 1 (spec/10_state.md R31, spec/30_encoding.md R63). -/
def Instr.length (i : Instr) : Nat := 1 + i.operandWords

/-- PAYLOAD is no command: it is legal only as an operand word of a WRITE_LINE (spec/30_encoding.md R64). -/
def Instr.isPayload : Instr → Bool
  | .payload _ => true
  | .cbInit _ | .push _ _ | .pop _ | .len _ | .isFull _ | .isEmpty _ | .setEvent _ _ | .initTransport _
  | .writeByte _ | .writeLine _ | .readByte | .readLine _ | .gieClr | .gieSet => false

end Sys2Proof
end

