-- ==== Sys2Proof/WellFormed.lean ====
section
/-! DEFINITION. Which parameter sets and which command streams are well formed. A single command cannot be ill formed:
every operand has exactly the values its field can carry (spec/30_encoding.md R61, R69). -/

namespace Sys2Proof

/-- The ranges of rule R1: `1 <= C <= 254`, and `LINE_TERM` at most two bytes. -/
def Params.wf (p : Params) : Bool :=
  1 ≤ p.capacity && p.capacity ≤ 254 && p.lineTerm.length ≤ 2

/-- A stream of which the next `k` commands must be PAYLOAD operand words. -/
def codeWfFrom : Nat → List Instr → Bool
  | 0, [] => true
  | _ + 1, [] => false
  | 0, i :: is => !i.isPayload && codeWfFrom i.operandWords is
  | k + 1, i :: is => i.isPayload && codeWfFrom k is

/-- A command stream is well formed when every WRITE_LINE header is followed by its `n` PAYLOAD words and a PAYLOAD word
stands nowhere else (spec/30_encoding.md R63, R64). -/
def codeWf (is : List Instr) : Bool := codeWfFrom 0 is

end Sys2Proof
end

