-- ==== Sys2Proof/Decode.lean ====
section
/-! DEFINITION. The command word: its fields, the decoder (total on any word, refusing by name), the encoder, the opcode
map, the pseudo-instructions (spec/30_encoding.md R60 to R65, R69, R71). -/

namespace Sys2Proof

/-! ### Fields of a command word (R60) -/

/-- `op`, bits 15:12. -/
def opField (w : Word) : BitVec 4 := w.extractLsb' 12 4
/-- `d`, bit 11. -/
def dirField (w : Word) : BitVec 1 := w.extractLsb' 11 1
/-- `rsv`, bits 10:8. -/
def rsvField (w : Word) : BitVec 3 := w.extractLsb' 8 3
/-- `imm8`, bits 7:0. -/
def immField (w : Word) : Byte := w.extractLsb' 0 8

/-- The direction field read as a selector: total, no error case (R61, spec/40_ring_buffer.md R80). -/
def directionOf (d : BitVec 1) : Direction := if d = 0#1 then .receive else .transmit

/-- The configuration in `imm8[3:0]`: bit 0 transmit enable, bit 1 receive enable, bit 2 receive callback, bit 3
transmit callback (R69). -/
def configOf (imm : Byte) : TransportConfig :=
  { txEnable := imm.getLsbD 0, rxEnable := imm.getLsbD 1, rxCallback := imm.getLsbD 2, txCallback := imm.getLsbD 3 }

/-- The value `{txcb, rxcb, rx, tx}` of a configuration (R71), zero-extended to `imm8`. -/
def configImm (c : TransportConfig) : Byte :=
  0#4 ++ BitVec.ofBool c.txCallback ++ BitVec.ofBool c.rxCallback ++ BitVec.ofBool c.rxEnable ++ BitVec.ofBool c.txEnable

/-! ### Decoding (R62, R65) -/

/-- Why a word at a command boundary is illegal (R65). Every reason raises the same fault, `F_ILLEGAL`. -/
inductive IllegalWord where
  | reservedOp      -- op is 0x0 or 0xF
  | reservedBits    -- rsv is not 0
  | directionGiven  -- d is 1 in a command that takes no direction
  | immediateGiven  -- imm8 is not 0 in a command that takes none
  | eventEnable     -- imm8[7:1] is not 0 in SET_EVENT
  | configuration   -- imm8[7:4] is not 0 in INITIALIZE
  | interruptEnable -- imm8 is above 1 with op 0xD
  | noWord          -- no word is there: the stream has ended
  deriving DecidableEq, Repr

/-- A command that takes a direction and no immediate. -/
def directed (imm : Byte) (i : Instr) : Except IllegalWord Instr :=
  if imm = 0#8 then .ok i else .error .immediateGiven

/-- A command that takes no direction. -/
def undirected (d : BitVec 1) (r : Except IllegalWord Instr) : Except IllegalWord Instr :=
  if d = 0#1 then r else .error .directionGiven

/-- The opcode map of R62, by the value of `op`. -/
def decodeFields (op : BitVec 4) (d : BitVec 1) (imm : Byte) : Except IllegalWord Instr :=
  match op with
  | 0x1#4 => directed imm (.cbInit (directionOf d))
  | 0x2#4 => .ok (.push (directionOf d) imm)
  | 0x3#4 => directed imm (.pop (directionOf d))
  | 0x4#4 => directed imm (.len (directionOf d))
  | 0x5#4 => directed imm (.isFull (directionOf d))
  | 0x6#4 => directed imm (.isEmpty (directionOf d))
  | 0x7#4 => if imm.extractLsb' 1 7 = 0#7 then .ok (.setEvent (directionOf d) (imm.getLsbD 0)) else .error .eventEnable
  | 0x8#4 => undirected d (if imm.extractLsb' 4 4 = 0#4 then .ok (.initTransport (configOf imm)) else .error .configuration)
  | 0x9#4 => undirected d (.ok (.writeByte imm))
  | 0xA#4 => undirected d (.ok (.writeLine imm))
  | 0xB#4 => undirected d (directed imm .readByte)
  | 0xC#4 => undirected d (.ok (.readLine imm))
  | 0xD#4 => undirected d
      (if imm = 0#8 then .ok .gieClr else if imm = 1#8 then .ok .gieSet else .error .interruptEnable)
  | 0xE#4 => undirected d (.ok (.payload imm))
  | _ => .error .reservedOp

/-- The decoder: total on every word, an illegal one refused by name (R65). -/
def decodeWord (w : Word) : Except IllegalWord Instr :=
  if rsvField w = 0#3 then decodeFields (opField w) (dirField w) (immField w) else .error .reservedBits

/-- The bits of an opcode-table row laid out as words: the first word is the low sixteen bits (R43 (c): words are whole,
and a WRITE_LINE's operand words, which the table gives no bits, are zero). -/
def tableWords (nbits w : Nat) : List Word :=
  (List.range ((nbits + 15) / 16)).map (fun k => BitVec.ofNat 16 (w / 2 ^ (16 * k)))

/-- What the decoder reads from a row's bits; the decoder finds a command in its first word alone (R63). -/
def decodeTableWord (nbits w : Nat) : Option Instr :=
  match tableWords nbits w with
  | [] => none
  | w0 :: _ => (decodeWord w0).toOption

/-- A word stored in two bytes by a harness, low byte first (spec/20_memory.md R43 (c)). -/
def wordBytes (w : Word) : List Byte := [w.extractLsb' 0 8, w.extractLsb' 8 8]

/-- Words read back from a harness's bytes, low byte first; an odd byte left over is no word. -/
def wordsOfBytes : List Byte → List Word
  | lo :: hi :: bs => (hi ++ lo) :: wordsOfBytes bs
  | _ => []

/-! ### Encoding -/

/-- A word of the one format `CMD16`, with `rsv` zero (R60). -/
def commandWord (op : BitVec 4) (d : BitVec 1) (imm : Byte) : Word := op ++ d ++ 0#3 ++ imm

/-- The command's own word; a WRITE_LINE's payload words are the words of the PAYLOAD rows after it (R62, R63). -/
def encode : Instr → Word
  | .cbInit d => commandWord 0x1#4 d.bit 0#8
  | .push d b => commandWord 0x2#4 d.bit b
  | .pop d => commandWord 0x3#4 d.bit 0#8
  | .len d => commandWord 0x4#4 d.bit 0#8
  | .isFull d => commandWord 0x5#4 d.bit 0#8
  | .isEmpty d => commandWord 0x6#4 d.bit 0#8
  | .setEvent d en => commandWord 0x7#4 d.bit (0#7 ++ BitVec.ofBool en)
  | .initTransport cfg => commandWord 0x8#4 0#1 (configImm cfg)
  | .writeByte b => commandWord 0x9#4 0#1 b
  | .writeLine n => commandWord 0xA#4 0#1 n
  | .readByte => commandWord 0xB#4 0#1 0#8
  | .readLine m => commandWord 0xC#4 0#1 m
  | .gieClr => commandWord 0xD#4 0#1 0#8
  | .gieSet => commandWord 0xD#4 0#1 1#8
  | .payload b => commandWord 0xE#4 0#1 b

/-- A row of the opcode map. -/
structure OpcodeRow where
  mnemonic : String
  pattern : Word
  mask : Word
  deriving DecidableEq, Repr

/-- A word is the command of a row iff the bits under the mask are the row's (R62). -/
def OpcodeRow.admits (r : OpcodeRow) (w : Word) : Bool := w &&& r.mask = r.pattern

/-- The opcode map of R62, written from its table. -/
def rowOf : Instr → OpcodeRow
  | .cbInit _ => ⟨"CB_INIT", 0x1000#16, 0xF7FF#16⟩
  | .push _ _ => ⟨"PUSH", 0x2000#16, 0xF700#16⟩
  | .pop _ => ⟨"POP", 0x3000#16, 0xF7FF#16⟩
  | .len _ => ⟨"LEN", 0x4000#16, 0xF7FF#16⟩
  | .isFull _ => ⟨"IS_FULL", 0x5000#16, 0xF7FF#16⟩
  | .isEmpty _ => ⟨"IS_EMPTY", 0x6000#16, 0xF7FF#16⟩
  | .setEvent _ _ => ⟨"SET_EVENT", 0x7000#16, 0xF7FE#16⟩
  | .initTransport _ => ⟨"INITIALIZE", 0x8000#16, 0xFFF0#16⟩
  | .writeByte _ => ⟨"WRITE_BYTE", 0x9000#16, 0xFF00#16⟩
  | .writeLine _ => ⟨"WRITE_LINE", 0xA000#16, 0xFF00#16⟩
  | .readByte => ⟨"READ_BYTE", 0xB000#16, 0xFFFF#16⟩
  | .readLine _ => ⟨"READ_LINE", 0xC000#16, 0xFF00#16⟩
  | .gieClr => ⟨"GIE_CLR", 0xD000#16, 0xFFFF#16⟩
  | .gieSet => ⟨"GIE_SET", 0xD001#16, 0xFFFF#16⟩
  | .payload _ => ⟨"PAYLOAD", 0xE000#16, 0xFF00#16⟩

/-- The fifteen rows that carry a mnemonic. -/
def opcodeMap : List OpcodeRow :=
  [.cbInit .receive, .push .receive 0#8, .pop .receive, .len .receive, .isFull .receive, .isEmpty .receive,
    .setEvent .receive false, .initTransport (configOf 0#8), .writeByte 0#8, .writeLine 0#8, .readByte,
    .readLine 0#8, .gieClr, .gieSet, .payload 0#8].map rowOf

/-! ### Pseudo-instructions (R71) and the print adapter (spec/41_transport.md R117) -/

/-- `CONFIGURE`: the default configuration, transmit and receive on, no callbacks, with the caller's overrides
(R71, spec/41_transport.md R101); pure, no word. -/
def configure (tx : Bool := true) (rx : Bool := true) (rxcb : Bool := false) (txcb : Bool := false) : TransportConfig :=
  { txEnable := tx, rxEnable := rx, rxCallback := rxcb, txCallback := txcb }

/-- `INITIALIZE` without an operand. -/
def initializeDefault : Instr := .initTransport (configure)

/-- `WRITE_LINE "text"`: the header and one PAYLOAD a byte (R71); a text of more than 255 bytes has no such form. -/
def writeLineText (text : List Byte) : Option (List Instr) :=
  if text.length ≤ 255 then some (.writeLine (BitVec.ofNat 8 text.length) :: text.map .payload) else none

/-- The formatted-output adapter is one WRITE_BYTE a byte (spec/41_transport.md R117). -/
def printAdapter (bytes : List Byte) : List Instr := bytes.map .writeByte

/-- A command stream as words. -/
def assemble (is : List Instr) : List Word := is.map encode

end Sys2Proof
end

