-- ==== Sys2Proof/Machine/State.lean ====
section
/-! DEFINITION. All the state the spec gives the block (spec/10_state.md R11, R18, R31 to R33), what the environment fixes
for a run (spec/70_reset_and_hazards.md R197), the reasons a step stops, and the state after reset (R35). -/

namespace Sys2Proof.Machine

/-- One storage array as data: its non-zero cells by rising cell index. A cell not listed reads `0x00`, its reset value
(spec/10_state.md R11, R35; log entry 13). -/
abbrev Memory := List Host.Cell

/-- The registers of one ring-buffer instance, and no others (spec/10_state.md R11). -/
structure Buffer where
  /-- `storage[d]`. -/
  storage : Memory
  /-- `wc[d]`, the write cursor. -/
  wc : Nat
  /-- `rc[d]`, the read cursor. -/
  rc : Nat
  /-- `count[d]`, the occupancy. -/
  count : Nat
  /-- `full[d]`, stored (R15). -/
  full : Bool
  /-- `ev_en[d]`, a callback is registered (R17). -/
  evEn : Bool
  deriving DecidableEq, Repr

/-- The causes of a fault, as the `fault` register records them (spec/60_exceptions.md R154). -/
inductive FaultCode where
  | uninit      -- F_UNINIT
  | reinit      -- F_REINIT
  | initGie     -- F_INIT_GIE
  | cbinitLive  -- F_CBINIT_LIVE
  | lineCap     -- F_LINE_CAP
  | illegal     -- F_ILLEGAL
  deriving DecidableEq, Repr

/-- Which micro-step of the command at `pc` comes next (spec/10_state.md R32). WRITE_BYTE uses `w2`, WRITE_LINE `w1` and
`w2`, READ_LINE `l2`; a command's first micro-step is taken at `idle`. -/
inductive UStep where
  | idle
  | w1
  | w2
  | l2
  deriving DecidableEq, Repr

/-- The status of a response word (spec/30_encoding.md R67). -/
inductive Status where
  | ok
  | bufferFull
  | bufferEmpty
  | more
  deriving DecidableEq, Repr

/-- The state. -/
structure State where
  /-- `C`, `LINE_TERM`, `READ_TERM`: given at launch, written by no step (spec/00_scope.md R1; log entry 1). -/
  params : Params
  /-- The command stream: given at launch, written by no step (spec/10_state.md R30, spec/20_memory.md R52; log entry 4). -/
  prog : List Word
  /-- The bytes the environment has still to deliver, oldest first (spec/70_reset_and_hazards.md R197; log entry 7). -/
  arrivals : List Byte
  /-- The model's own: the order in which agents are offered the next steps (spec/20_memory.md R47; log entry 5). -/
  turns : List Agent
  /-- The model's own: how many rounds of the free schedule have been drawn (log entry 5). -/
  round : Nat
  /-- The Receive buffer, `d = 0`. -/
  rx : Buffer
  /-- The Transmit buffer, `d = 1`. -/
  tx : Buffer
  /-- CR0, the transport is Initialized (R19). -/
  init : Bool
  /-- CR1, the global interrupt enable (R20). -/
  gie : Bool
  /-- CR2, the sticky fault; `none` is the value 0 (R21). -/
  fault : Option FaultCode
  /-- CR3, receiver enable (R22). -/
  rxen : Bool
  /-- CR4, transmitter enable (R22). -/
  txen : Bool
  /-- CR5, receive-data-available interrupt unmasked (R23). -/
  rxIntEn : Bool
  /-- CR6, transmit-register-empty interrupt unmasked (R23). -/
  txIntEn : Bool
  /-- SR0, byte received (R26). -/
  rxc : Bool
  /-- SR1, data register empty (R26). -/
  dre : Bool
  /-- DR0, the received byte (R27). -/
  rxData : Byte
  /-- DR1, the byte to transmit (R27). -/
  txData : Byte
  /-- Index in `prog` of the command NORMAL executes (R31). -/
  pc : Nat
  /-- Progress of a command with more than one micro-step (R32). -/
  ustep : UStep
  /-- WRITE_LINE: index of the next byte of `payload ++ LINE_TERM` (R32). -/
  wlIdx : Nat
  /-- WRITE_LINE: bytes enqueued so far (R32). -/
  wlEnq : Nat
  /-- READ_LINE: data bytes delivered so far (R32). -/
  rlEmitted : Nat
  /-- Output stream of response words (R33). -/
  resp : List Word
  /-- Output stream of events; an element `d` is `EVT(d)` (R33). -/
  evt : List Direction
  /-- Output stream of bytes put on the line (R33). -/
  wireOut : List Byte
  deriving DecidableEq, Repr

/-- Why a step gives no next state. None of these is the block's own `fault` register: a command that violates a
precondition takes the fault of spec/60_exceptions.md R153 and answers a next state. -/
inductive Fault where
  /-- Raised by a push or a pop whose cursor is no cell of the array (`wc` or `rc` not below `C`): the cell does not
  exist (spec/20_memory.md R40, R42). No state of the invariant reaches it (spec/10_state.md R24). Safe. -/
  | noSuchCell
  /-- Raised by WRITE_LINE when `wl_idx` is past `payload ++ LINE_TERM`: there is no such byte. No state of the invariant
  reaches it. Safe. -/
  | noSuchLineByte
  /-- Raised by `step` in a good end of the run: no agent has a step (spec/70_reset_and_hazards.md R196). Safe. -/
  | endOfRun
  /-- Raised by `step` in a stuck state: no fault, no agent has a step, and the end is not good (R196). Safe. -/
  | stuck
  /-- Raised by `step` when the `fault` register is set and no agent has a step (R153, R196). Safe. -/
  | halted (code : FaultCode)
  deriving DecidableEq, Repr

/-- What the model gives no meaning. -/
inductive Refusal where
  /-- An instruction whose arm of `exec` has no meaning yet. Safe. -/
  | notModelled (mnemonic : String)
  /-- Raised by WRITE_BYTE and WRITE_LINE with the transmitter not enabled: the spec gives no behaviour and orders a
  model to refuse (spec/41_transport.md R107, spec/93_implementation_defined.md U3). Safe. -/
  | transmitDisabled
  /-- Raised by `hardware_write` while `dre == 0`: the spec gives no meaning and orders a model to refuse
  (spec/42_uart_glue.md R131, spec/93_implementation_defined.md U4). TXH never meets it. Safe. -/
  | dataRegisterBusy
  deriving DecidableEq, Repr

/-- A step's answer. -/
abbrev Outcome := Host.Outcome State Fault Refusal

/-- The empty, zero-initialised buffer of rule R35. -/
def Buffer.reset : Buffer :=
  { storage := [], wc := 0, rc := 0, count := 0, full := false, evEn := false }

/-- The state at the start of a run with the parameters, the command stream, the arriving bytes and the schedule the
environment gives (spec/70_reset_and_hazards.md R197): every register at its reset value (spec/10_state.md R35). -/
def State.launch (p : Params) (prog : List Word) (arrivals : List Byte) (turns : List Agent) : State :=
  { params := p, prog := prog, arrivals := arrivals, turns := turns, round := 0
    rx := Buffer.reset, tx := Buffer.reset
    init := false, gie := false, fault := none, rxen := false, txen := false, rxIntEn := false, txIntEn := false
    rxc := false, dre := true, rxData := 0x00#8, txData := 0x00#8
    pc := 0, ustep := .idle, wlIdx := 0, wlEnq := 0, rlEmitted := 0
    resp := [], evt := [], wireOut := [] }

/-- The machine right after reset: the default parameters, and nothing loaded, arriving or scheduled (log entries 2 to 7). -/
def State.reset : State := State.launch Config.defaultParams [] [] []

end Sys2Proof.Machine
end

