-- ==== Sys2Proof/Machine/Ops.lean ====
section
/-! DEFINITION. The operations every meaning is made of: storage cells, the ring-buffer helpers `buf_reset`, `push`, `pop`,
responses, completing a command, and raising a fault (spec/00_scope.md R5, spec/40_ring_buffer.md R82, R83, R85). -/

namespace Sys2Proof.Machine

/-! ### Storage (spec/20_memory.md R42) -/

/-- Every listed cell index is at least `lo`, they rise strictly, and no listed byte is the `0x00` an unlisted cell reads as. -/
def Memory.wfFrom : Nat → Memory → Bool
  | _, [] => true
  | lo, c :: cs => lo ≤ c.1 && c.2 ≠ 0#8 && Memory.wfFrom (c.1 + 1) cs

/-- The canonical form of a storage array. -/
def Memory.wf (m : Memory) : Bool := Memory.wfFrom 0 m

/-- Every listed cell is one of the cells `0 .. C-1`. -/
def Memory.within (cap : Nat) (m : Memory) : Bool := m.all (fun c => c.1 < cap)

/-- `MemRead((d, i), 1)`: the byte of cell `i`; a cell nothing has written reads its reset value `0x00`. -/
def Memory.read : Memory → Nat → Byte
  | [], _ => 0#8
  | c :: cs, i => if c.1 = i then c.2 else Memory.read cs i

/-- A listing with cell `i` holding `b`, listed only when `b` is not the `0x00` an unlisted cell reads as. -/
def Memory.cons (i : Nat) (b : Byte) (m : Memory) : Memory := if b = 0#8 then m else (i, b) :: m

/-- `MemWrite((d, i), 1, b)`, keeping the canonical form. -/
def Memory.write : Memory → Nat → Byte → Memory
  | [], i, b => Memory.cons i b []
  | c :: cs, i, b =>
    if i < c.1 then Memory.cons i b (c :: cs)
    else if i = c.1 then Memory.cons i b cs
    else c :: Memory.write cs i b

/-! ### Ring-buffer helpers -/

/-- The cursor's one operation: plus one, modulo C (spec/10_state.md R13). -/
def nextCursor (cap cursor : Nat) : Nat := (cursor + 1) % cap

/-- `buf_reset(d)`: cursors, count, full and callback; storage is not written (R82). -/
def Buffer.clear (q : Buffer) : Buffer :=
  { q with wc := 0, rc := 0, count := 0, full := false, evEn := false }

/-- What `push` answers. -/
inductive PushResult where
  | ok (q : Buffer)
  | bufferFull
  | noCell          -- the write cursor is no cell of the array
  deriving DecidableEq, Repr

/-- What `pop` answers. -/
inductive PopResult where
  | ok (b : Byte) (q : Buffer)
  | bufferEmpty
  | noCell          -- the read cursor is no cell of the array
  deriving DecidableEq, Repr

/-- `push(d, b)`, one critical section (R83): refused when full; otherwise the byte goes to the cell of the write cursor,
the cursor advances, the count rises, and `full` is set when the advanced write cursor meets the read cursor. -/
def Buffer.push (cap : Nat) (b : Byte) (q : Buffer) : PushResult :=
  if q.full then .bufferFull
  else if q.wc < cap then
    .ok { q with
      storage := q.storage.write q.wc b
      wc := nextCursor cap q.wc
      count := q.count + 1
      full := if nextCursor cap q.wc = q.rc then true else q.full }
  else .noCell

/-- `pop(d)`, one critical section (R85): refused when the count is 0; otherwise the byte of the read cursor's cell is
the result, the cursor advances, the count falls, and `full` is cleared. The cell is not cleared (R86 (b)). -/
def Buffer.pop (cap : Nat) (q : Buffer) : PopResult :=
  if q.count = 0 then .bufferEmpty
  else if q.rc < cap then
    .ok (q.storage.read q.rc) { q with rc := nextCursor cap q.rc, count := q.count - 1, full := false }
  else .noCell

/-- `contents(d)`, oldest byte first (spec/10_state.md R25). -/
def Buffer.contents (cap : Nat) (q : Buffer) : List Byte :=
  (List.range q.count).map (fun k => q.storage.read ((q.rc + k) % cap))

/-! ### Responses (spec/30_encoding.md R66, R67) -/

/-- The two-bit code of a status. -/
def Status.code : Status → BitVec 2
  | .ok => 0#2
  | .bufferFull => 1#2
  | .bufferEmpty => 2#2
  | .more => 3#2

/-- The response word `{status, 0000, value[9:0]}`. -/
def respWord (st : Status) (value : BitVec 10) : Word := st.code ++ 0#4 ++ value

/-- `respond(status, value)`: append one response word. -/
def respond (st : Status) (value : BitVec 10) (s : State) : State :=
  { s with resp := s.resp ++ [respWord st value] }

/-- A byte as a response value: bits 7:0, with 9:8 zero (R66). -/
def byteValue (b : Byte) : BitVec 10 := b.zeroExtend 10

/-- A count as a response value, `zext_10` (spec/40_ring_buffer.md R87). -/
def countValue (n : Nat) : BitVec 10 := BitVec.ofNat 10 n

/-- The end of a command of `len` words: the next one comes, at its first micro-step (spec/10_state.md R31,
spec/41_transport.md R100). -/
def complete (len : Nat) (s : State) : State := { s with pc := s.pc + len, ustep := .idle }

/-- Respond and complete: the end of every command that does not fault. -/
def finish (st : Status) (value : BitVec 10) (len : Nat) (s : State) : State :=
  complete len (respond st value s)

/-! ### Faults (spec/60_exceptions.md R153) -/

/-- The value of the `fault` register (R154). -/
def FaultCode.code : FaultCode → BitVec 3
  | .uninit => 1#3
  | .reinit => 2#3
  | .initGie => 3#3
  | .cbinitLive => 4#3
  | .lineCap => 5#3
  | .illegal => 6#3

/-- `raise Fault(code)`: recorded only if no fault is; nothing else changes, so `pc` keeps the faulting command and no
response is appended (R153, R155). There is no return from a fault but reset. -/
def raiseFault (c : FaultCode) (s : State) : State :=
  { s with fault := if s.fault = none then some c else s.fault }

/-- The FAULT output: the level of the `fault` register (spec/30_encoding.md R73). -/
def faultOutput (s : State) : BitVec 3 :=
  match s.fault with
  | none => 0#3
  | some c => c.code

end Sys2Proof.Machine
end

