-- ==== Sys2Proof/Machine/Operands.lean ====
section
/-! DEFINITION. Operand forms: the direction selector (RESOLVE), the command word at `pc`, the PAYLOAD operand words of a
WRITE_LINE, and placing a command where the next fetch reads it. -/

namespace Sys2Proof.Machine

/-- `resolve(d)`: the buffer instance a direction selects (spec/40_ring_buffer.md R80). -/
def resolve (d : Direction) (s : State) : Buffer :=
  match d with
  | .receive => s.rx
  | .transmit => s.tx

/-- Write back the instance a direction selects. -/
def setBuffer (d : Direction) (q : Buffer) (s : State) : State :=
  match d with
  | .receive => { s with rx := q }
  | .transmit => { s with tx := q }

/-- The byte of cell `i` of `storage[d]`. -/
def cell (s : State) (d : Direction) (i : Nat) : Byte := (resolve d s).storage.read i

/-- `contents(d)` (spec/10_state.md R25). -/
def contents (s : State) (d : Direction) : List Byte := (resolve d s).contents s.params.capacity

/-- The command at `prog[pc]` (spec/10_state.md R31, spec/20_memory.md R52). -/
def fetch (s : State) : Except IllegalWord Instr :=
  match s.prog[s.pc]? with
  | none => .error .noWord
  | some w => decodeWord w

/-- The bytes of the first `n` words if every one is there and is a PAYLOAD word (spec/30_encoding.md R64). -/
def payloadBytes : Nat → List Word → Option (List Byte)
  | 0, _ => some []
  | _ + 1, [] => none
  | n + 1, w :: ws =>
    match decodeWord w with
    | .ok (.payload b) => (payloadBytes n ws).map (b :: ·)
    | .ok _ => none
    | .error _ => none

/-- The payload of the WRITE_LINE whose header stands at `pc`. -/
def linePayload (n : Byte) (s : State) : Option (List Byte) := payloadBytes n.toNat (s.prog.drop (s.pc + 1))

/-- `seq = payload ++ LINE_TERM` (spec/41_transport.md R108). -/
def lineBytes (s : State) (payload : List Byte) : List Byte := payload ++ s.params.lineTerm

/-- `ws` extended with zero words to the length of the command its first word begins. -/
def commandWords (ws : List Word) : List Word :=
  match ws with
  | [] => []
  | w :: _ =>
    match decodeWord w with
    | .ok i => ws ++ List.replicate (i.length - ws.length) 0#16
    | .error _ => ws

/-- A stream with the words `ws` at index `at`; words missing below `at` are filled with zeros. -/
def placeAt (prog : List Word) (pos : Nat) (ws : List Word) : List Word :=
  prog.take pos ++ List.replicate (pos - prog.length) 0#16 ++ ws ++ prog.drop (pos + ws.length)

/-- Load a command where NORMAL fetches next, between commands, and give NORMAL the next turn (log entry 4). -/
def loadCommand (ws : List Word) (s : State) : State :=
  { s with prog := placeAt s.prog s.pc (commandWords ws), ustep := .idle, turns := .normal :: s.turns }

end Sys2Proof.Machine
end

