-- ==== Sys2Proof/Machine/Flags.lean ====
section
/-! DEFINITION. The values computed from the registers: empty, the interrupt requests, `status_flags`. The stored flag
`full` is written by the helpers of Machine/Ops.lean (spec/10_state.md R15). -/

namespace Sys2Proof.Machine

/-- `empty(d)`: the count is 0 (spec/10_state.md R16). -/
def isEmptyFlag (q : Buffer) : Bool := q.count = 0

/-- A 1-bit value as a response value, `zext_10` (spec/40_ring_buffer.md R88). -/
def flagValue (b : Bool) : BitVec 10 := (BitVec.ofBool b).zeroExtend 10

/-- `irq_rx`, the enable condition of RXH (spec/10_state.md R28, spec/60_exceptions.md R161). -/
def irqRx (s : State) : Bool := s.gie && s.rxIntEn && s.rxc && s.fault.isNone

/-- `irq_tx`, the enable condition of TXH: a level, not an edge (spec/10_state.md R28, spec/60_exceptions.md R162). -/
def irqTx (s : State) : Bool := s.gie && s.txIntEn && s.dre && s.fault.isNone

/-- `status_flags()`: the pair `(dre, rxc)`, changing nothing (spec/42_uart_glue.md R133). -/
def statusFlags (s : State) : Bool × Bool := (s.dre, s.rxc)

end Sys2Proof.Machine
end

