-- ==== Sys2Proof/Machine/RingBuffer.lean ====
section
/-! DEFINITION. The ring-buffer commands, one atomic step each (spec/40_ring_buffer.md). None reads `init` (R94), none
emits an event (R93), each is one word long. -/

namespace Sys2Proof.Machine

/-- CB_INIT d (R81): reset one buffer; a fault while either interrupt source is unmasked. -/
def execCbInit (d : Direction) (s : State) : Outcome :=
  if s.rxIntEn || s.txIntEn then .next (raiseFault .cbinitLive s)
  else .next (finish .ok 0#10 1 (setBuffer d (resolve d s).clear s))

/-- PUSH d, b (R83): append a byte, or answer BufferFull with nothing changed (R84 (a)). -/
def execPush (d : Direction) (b : Byte) (s : State) : Outcome :=
  match (resolve d s).push s.params.capacity b with
  | .ok q => .next (finish .ok 0#10 1 (setBuffer d q s))
  | .bufferFull => .next (finish .bufferFull 0#10 1 s)
  | .noCell => .fault .noSuchCell

/-- POP d (R85): remove and answer the oldest byte, or answer BufferEmpty with nothing changed (R86 (a)). -/
def execPop (d : Direction) (s : State) : Outcome :=
  match (resolve d s).pop s.params.capacity with
  | .ok b q => .next (finish .ok (byteValue b) 1 (setBuffer d q s))
  | .bufferEmpty => .next (finish .bufferEmpty 0#10 1 s)
  | .noCell => .fault .noSuchCell

/-- LEN d (R87). -/
def execLen (d : Direction) (s : State) : Outcome :=
  .next (finish .ok (countValue (resolve d s).count) 1 s)

/-- IS_FULL d (R88). -/
def execIsFull (d : Direction) (s : State) : Outcome :=
  .next (finish .ok (flagValue (resolve d s).full) 1 s)

/-- IS_EMPTY d (R89). -/
def execIsEmpty (d : Direction) (s : State) : Outcome :=
  .next (finish .ok (flagValue (isEmptyFlag (resolve d s))) 1 s)

/-- SET_EVENT d, en (R91): register or remove the callback of a direction. -/
def execSetEvent (d : Direction) (en : Bool) (s : State) : Outcome :=
  .next (finish .ok 0#10 1 (setBuffer d { resolve d s with evEn := en } s))

end Sys2Proof.Machine
end

