-- ==== Sys2Proof/Machine/Glue.lean ====
section
/-! DEFINITION. The UART side: the primitives of the narrow contract, the two steps of the line hardware, and the 8N1
frame of a byte (spec/42_uart_glue.md). -/

namespace Sys2Proof.Machine

/-- `hardware_write(b)` (R131); with `dre == 0` it has no meaning and is refused (U4). -/
def hardwareWrite (b : Byte) (s : State) : Outcome :=
  if s.dre then .next { s with txData := b, dre := false } else .refused .dataRegisterBusy

/-- `hardware_read()` (R132): the received byte, and `rxc` cleared. -/
def hardwareRead (s : State) : Byte × State := (s.rxData, { s with rxc := false })

/-- `enable(tx, rx)` (R134). -/
def enableLine (tx rx : Bool) (s : State) : State := { s with txen := tx, rxen := rx }

/-- `program_baud()`: no effect on any state (R136). -/
def programBaud (s : State) : State := s

/-- `rx_arrive(b)` (R138): taken when no byte waits, otherwise lost without a trace. -/
def rxArrive (b : Byte) (s : State) : State :=
  if s.rxc then s else { s with rxData := b, rxc := true }

/-- WIRE_RX: the next byte of the environment arrives. -/
def wireRx (s : State) : Outcome :=
  match s.arrivals with
  | [] => .next s
  | b :: bs => .next (rxArrive b { s with arrivals := bs })

/-- WIRE_TX `tx_shift` (R139): the byte in the data register goes onto the line. -/
def wireTx (s : State) : Outcome :=
  .next { s with wireOut := s.wireOut ++ [s.txData], dre := true }

/-! ### The frame at bit level (R141, general knowledge K1; log entry 14) -/

/-- Ten bit-times: start bit 0, eight data bits least significant first, stop bit 1. -/
def frame (b : Byte) : List Bool := false :: (List.range 8).map (fun i => b.getLsbD i) ++ [true]

/-- The byte whose bits, least significant first, are these. -/
def byteOfBits (bits : List Bool) : Byte := BitVec.ofNat 8 (bits.foldr (fun b n => b.toNat + 2 * n) 0)

/-- The byte a frame delivers; a frame of another length, without its start bit or with a stop bit 0 delivers none (R142). -/
def unframe (bits : List Bool) : Option Byte :=
  if bits.length = 10 && bits.head? = some false && bits.getLast? = some true
  then some (byteOfBits ((bits.drop 1).take 8)) else none

end Sys2Proof.Machine
end

