-- ==== Sys2Proof/Machine/Transport.lean ====
section
/-! DEFINITION. The transport commands, micro-step by micro-step (spec/41_transport.md). Each call of a meaning is one
micro-step of NORMAL; handlers and the line may step between two of them (spec/20_memory.md R46, R51). -/

namespace Sys2Proof.Machine

/-- INITIALIZE cfg (R102): one atomic step in the source's order; F_REINIT goes before F_INIT_GIE
(spec/60_exceptions.md R156). -/
def execInitialize (cfg : TransportConfig) (s : State) : Outcome :=
  if s.init then .next (raiseFault .reinit s)
  else if s.gie then .next (raiseFault .initGie s)
  else
    let s1 := { s with rx := s.rx.clear, tx := s.tx.clear }
    let s2 := enableLine cfg.txEnable cfg.rxEnable (programBaud s1)
    .next (finish .ok 0#10 1
      { s2 with
        rx := { s2.rx with evEn := cfg.rxCallback }
        tx := { s2.tx with evEn := cfg.txCallback }
        rxIntEn := true
        init := true })

/-- WRITE_BYTE, micro-step W1 (R105): push; BufferFull ends the command and nothing is armed. With the transmitter not
enabled the command is refused (R107). -/
def writeByteW1 (b : Byte) (s : State) : Outcome :=
  if !s.init then .next (raiseFault .uninit s)
  else if !s.txen then .refused .transmitDisabled
  else
    match s.tx.push s.params.capacity b with
    | .ok q => .next { s with tx := q, ustep := .w2 }
    | .bufferFull => .next (finish .bufferFull 0#10 1 s)
    | .noCell => .fault .noSuchCell

/-- WRITE_BYTE, micro-step W2 (R105, R106): arm the transmit interrupt and respond. -/
def writeByteW2 (s : State) : Outcome :=
  .next (finish .ok 0#10 1 { s with txIntEn := true })

/-- WRITE_BYTE b (R105). -/
def execWriteByte (b : Byte) (s : State) : Outcome :=
  match s.ustep with
  | .w2 => writeByteW2 s
  | .idle | .w1 | .l2 => writeByteW1 b s

/-- NEXT of WRITE_LINE (R108): the end of the line, or another W1. `len` is the command's length in words. -/
def writeLineNext (total len : Nat) (s : State) : State :=
  if s.wlIdx = total then finish .ok (countValue s.wlEnq) len s else { s with ustep := .w1 }

/-- WRITE_LINE, micro-step W1 (R108): push the byte at `wl_idx`; one that finds the buffer full is dropped silently. -/
def writeLineW1 (seq : List Byte) (len : Nat) (s : State) : Outcome :=
  match seq[s.wlIdx]? with
  | none => .fault .noSuchLineByte
  | some b =>
    match s.tx.push s.params.capacity b with
    | .ok q => .next { s with tx := q, wlEnq := s.wlEnq + 1, ustep := .w2 }
    | .bufferFull => .next (writeLineNext seq.length len { s with wlIdx := s.wlIdx + 1 })
    | .noCell => .fault .noSuchCell

/-- WRITE_LINE, micro-step W2 (R108): arm the transmit interrupt and go on. -/
def writeLineW2 (seq : List Byte) (len : Nat) (s : State) : Outcome :=
  .next (writeLineNext seq.length len { s with txIntEn := true, wlIdx := s.wlIdx + 1 })

/-- WRITE_LINE, the first micro-step: L0, and W1 with it unless there is nothing to write (R108). With the transmitter
not enabled the command is refused (R107). -/
def writeLineL0 (seq : List Byte) (len : Nat) (s : State) : Outcome :=
  if !s.init then .next (raiseFault .uninit s)
  else if !s.txen then .refused .transmitDisabled
  else
    let s0 := { s with wlIdx := 0, wlEnq := 0 }
    if seq.length = 0 then .next (finish .ok 0#10 len s0) else writeLineW1 seq len s0

/-- WRITE_LINE n with its PAYLOAD words (R108, R110). A malformed payload faults before anything is done; the stream
cannot change, so the check at a later micro-step answers as the first did (log entry 12). -/
def execWriteLine (n : Byte) (s : State) : Outcome :=
  match linePayload n s with
  | none => .next (raiseFault .illegal s)
  | some payload =>
    match s.ustep with
    | .w1 => writeLineW1 (lineBytes s payload) (1 + n.toNat) s
    | .w2 => writeLineW2 (lineBytes s payload) (1 + n.toNat) s
    | .idle | .l2 => writeLineL0 (lineBytes s payload) (1 + n.toNat) s

/-- READ_BYTE (R111). -/
def execReadByte (s : State) : Outcome :=
  if !s.init then .next (raiseFault .uninit s)
  else
    match s.rx.pop s.params.capacity with
    | .ok b q => .next (finish .ok (byteValue b) 1 { s with rx := q })
    | .bufferEmpty => .next (finish .bufferEmpty 0#10 1 s)
    | .noCell => .fault .noSuchCell

/-- READ_LINE, micro-step L1 (R113): the emptiness test. -/
def readLineL1 (s : State) : Outcome :=
  if !s.init then .next (raiseFault .uninit s)
  else if s.rx.count = 0 then .next (finish .bufferEmpty 0#10 1 s)
  else .next { s with rlEmitted := 0, ustep := .l2 }

/-- READ_LINE, micro-step L2, repeated (R113): on an empty buffer the terminator and the count; otherwise one more byte,
unless it and the terminator no longer fit the destination (R114 (c)). -/
def readLineL2 (m : Byte) (s : State) : Outcome :=
  match s.rx.pop s.params.capacity with
  | .bufferEmpty => .next (finish .ok (countValue s.rlEmitted) 1 (respond .more (byteValue s.params.readTerm) s))
  | .ok b q =>
    if s.rlEmitted + 2 > m.toNat then .next (raiseFault .lineCap s)
    else .next (respond .more (byteValue b) { s with rx := q, rlEmitted := s.rlEmitted + 1 })
  | .noCell => .fault .noSuchCell

/-- READ_LINE m (R113, R114). -/
def execReadLine (m : Byte) (s : State) : Outcome :=
  match s.ustep with
  | .l2 => readLineL2 m s
  | .idle | .w1 | .w2 => readLineL1 s

/-- GIE_CLR (R115). -/
def execGieClr (s : State) : Outcome := .next (finish .ok 0#10 1 { s with gie := false })

/-- GIE_SET (R116). -/
def execGieSet (s : State) : Outcome := .next (finish .ok 0#10 1 { s with gie := true })

/-- PAYLOAD b met at a command boundary (R109): illegal, whatever the byte. -/
def execPayload (_b : Byte) (s : State) : Outcome := .next (raiseFault .illegal s)

end Sys2Proof.Machine
end

