-- ==== Sys2Proof/Machine/Dispatch.lean ====
section
/-! DEFINITION. The meaning of each command, arm by arm: one micro-step of NORMAL (spec/20_memory.md R46). That NORMAL is
enabled (no fault, a command at `pc`) is tested by the step, not here (spec/20_memory.md R47; log entry 15). -/

namespace Sys2Proof.Machine

def exec (i : Instr) (s : State) : Host.Outcome State Fault Refusal :=
  match i with
  | .cbInit d => Sys2Proof.Machine.execCbInit d s
  | .push d b => Sys2Proof.Machine.execPush d b s
  | .pop d => Sys2Proof.Machine.execPop d s
  | .len d => Sys2Proof.Machine.execLen d s
  | .isFull d => Sys2Proof.Machine.execIsFull d s
  | .isEmpty d => Sys2Proof.Machine.execIsEmpty d s
  | .setEvent d en => Sys2Proof.Machine.execSetEvent d en s
  | .initTransport cfg => Sys2Proof.Machine.execInitialize cfg s
  | .writeByte b => Sys2Proof.Machine.execWriteByte b s
  | .writeLine n => Sys2Proof.Machine.execWriteLine n s
  | .readByte => Sys2Proof.Machine.execReadByte s
  | .readLine m => Sys2Proof.Machine.execReadLine m s
  | .gieClr => Sys2Proof.Machine.execGieClr s
  | .gieSet => Sys2Proof.Machine.execGieSet s
  | .payload b => Sys2Proof.Machine.execPayload b s

end Sys2Proof.Machine
end

