-- ==== Sys2Proof/Machine/Handlers.lean ====
section
/-! DEFINITION. Taking an interrupt: the two handler bodies, one atomic step each, and the event outputs
(spec/60_exceptions.md R164 to R168). Entry saves nothing a rule can see and `gie` ends as it began (R166); the return is
the end of the step (R167). -/

namespace Sys2Proof.Machine

/-- `emit_evt(d)`: the event output of direction `d` pulses once (R168). The callback's body has no step (R169). -/
def emitEvt (d : Direction) (s : State) : State := { s with evt := s.evt ++ [d] }

/-- RXH, the receive-complete handler (R164): read the byte, push it, pulse the Receive event if the push succeeded and a
callback is registered; a byte that finds the buffer full is dropped. -/
def rxh (s : State) : Outcome :=
  let b := (hardwareRead s).1
  let s1 := (hardwareRead s).2
  match s1.rx.push s1.params.capacity b with
  | .ok q => .next (if s1.rx.evEn then emitEvt .receive { s1 with rx := q } else { s1 with rx := q })
  | .bufferFull => .next s1
  | .noCell => .fault .noSuchCell

/-- What TXH does after its write of the data register: when its pop drained the buffer it disarms and pulses the
Transmit event if a callback is registered (R165 (c), (d)). -/
def txDrained (s : State) : State :=
  if s.tx.count = 0 then
    let s1 := { s with txIntEn := false }
    if s.tx.evEn then emitEvt .transmit s1 else s1
  else s

/-- TXH, the transmit-register-empty handler (R165): entered with nothing to send it disarms; otherwise the oldest byte
goes to the data register. -/
def txh (s : State) : Outcome :=
  match s.tx.pop s.params.capacity with
  | .bufferEmpty => .next { s with txIntEn := false }
  | .ok b q =>
    match hardwareWrite b { s with tx := q } with
    | .next s1 => .next (txDrained s1)
    | .fault r => .fault r
    | .refused r => .refused r
  | .noCell => .fault .noSuchCell

end Sys2Proof.Machine
end

