-- ==== Sys2Proof/Machine/Schedule.lean ====
section
/-! DEFINITION. Who may step and who steps next (spec/20_memory.md R47), and how a run ends (spec/70_reset_and_hazards.md
R196, R198). The choice among the enabled agents is data of the state, then a free value (log entries 5 and 6). -/

namespace Sys2Proof.Machine

/-- The enable conditions of R47. -/
def enabled (a : Agent) (s : State) : Bool :=
  match a with
  | .normal => s.fault.isNone && s.pc < s.prog.length
  | .rxh => irqRx s
  | .txh => irqTx s
  | .wireRx => s.rxen && !s.arrivals.isEmpty
  | .wireTx => !s.dre

/-- The agents that may take the next step. -/
def enabledAgents (s : State) : List Agent := Agent.all.filter (fun a => enabled a s)

/-- The agents offered a turn in round `k` of the free schedule: any finite list, then one agent in rotation. The last
one is what makes the schedule fair (R47): every agent is offered a turn again and again. -/
def roundTurns (k : Nat) : List Agent := Config.freeTurns k ++ (Agent.all.drop (k % 5)).take 1

/-- The offered turns from the first enabled agent on; a turn offered to an agent that is not enabled passes. -/
def dueTurns (offers : List Agent) (s : State) : List Agent := offers.dropWhile (fun a => !enabled a s)

/-- Draw rounds of the free schedule until one offers a turn to an enabled agent. Five rounds offer every agent a turn. -/
def drawTurn : Nat → State → Option (Agent × State)
  | 0, _ => none
  | k + 1, s =>
    match dueTurns (roundTurns s.round) s with
    | a :: rest => some (a, { s with turns := rest, round := s.round + 1 })
    | [] => drawTurn k { s with turns := [], round := s.round + 1 }

/-- The agent that takes the next step, and the state with its turn used up; none when no agent is enabled. The turns
held in the state come first. When they are used up and one agent alone is enabled there is nothing to choose; when
several are, the free schedule chooses. -/
def nextTurn (s : State) : Option (Agent × State) :=
  match dueTurns s.turns s with
  | a :: rest => some (a, { s with turns := rest })
  | [] =>
    match enabledAgents s with
    | [] => none
    | [a] => some (a, { s with turns := [] })
    | _ :: _ :: _ => drawTurn 5 { s with turns := [] }

/-- A run has ended well (R196). -/
def goodEnd (s : State) : Bool :=
  s.fault.isNone && s.pc = s.prog.length && s.ustep = .idle && !s.rxc && !s.txIntEn && s.dre
    && (s.arrivals.isEmpty || !s.rxen)

/-- The answer of a step when no agent has one: the reason the run is over (R153, R196). -/
def runOver (s : State) : Fault :=
  match s.fault with
  | some c => .halted c
  | none => if goodEnd s then .endOfRun else .stuck

/-- `clean_launch` (R198): exactly the reset state of spec/10_state.md R35, whatever the environment gave. -/
def cleanLaunch (s : State) : Bool :=
  s.fault = none && s.pc = 0 && s.ustep = .idle && !s.rxc && s.dre && !s.gie && !s.init
    && !s.rxen && !s.txen && !s.rxIntEn && !s.txIntEn
    && s.rxData = 0#8 && s.txData = 0#8 && s.wlIdx = 0 && s.wlEnq = 0 && s.rlEmitted = 0
    && s.rx = Buffer.reset && s.tx = Buffer.reset
    && s.resp = [] && s.evt = [] && s.wireOut = []

end Sys2Proof.Machine
end

