-- ==== Sys2Proof/Machine/Agents.lean ====
section
/-! DEFINITION. One step of each agent (spec/00_scope.md R3, spec/20_memory.md R46). -/

namespace Sys2Proof.Machine

/-- NORMAL: fetch, decode, and one micro-step of the command; an illegal word raises F_ILLEGAL and does nothing else
(spec/30_encoding.md R65). -/
def normalStep (s : State) : Outcome :=
  match fetch s with
  | .ok i => exec i s
  | .error _ => .next (raiseFault .illegal s)

/-- One atomic step of an agent that is enabled. -/
def agentStep (a : Agent) (s : State) : Outcome :=
  match a with
  | .normal => normalStep s
  | .rxh => rxh s
  | .txh => txh s
  | .wireRx => wireRx s
  | .wireTx => wireTx s

end Sys2Proof.Machine
end

