-- ==== Sys2Proof/Machine/Step.lean ====
section
/-! DEFINITION. One step of the machine: the agent whose turn it is takes one atomic step (spec/20_memory.md R46, R47). -/

namespace Sys2Proof.Machine

/-- One step: the next agent's, or the reason the run is over when no agent has a step. -/
def step (s : State) : Host.Outcome State Fault Refusal :=
  match nextTurn s with
  | none => .fault (runOver s)
  | some (a, s1) => agentStep a s1

/-- `s` with the command whose bits are `w` loaded where NORMAL fetches next, and NORMAL given the next turn (log entry 4). -/
def State.withFetchWord (s : State) (nbits w : Nat) : State := loadCommand (tableWords nbits w) s

end Sys2Proof.Machine
end

