-- ==== Sys2Proof/Safety.lean ====
section
/-! DEFINITION. The invariants of the machine and the terms the statements are made of: what a legal state is
(spec/10_state.md R24), what a command does when no other agent steps between its micro-steps, and reachability. -/

namespace Sys2Proof.Machine

/-- INV1 to INV5 of rule R24, and a storage array in canonical form that lists cells `0 .. C-1` only. INV4 is
`(wc - rc) mod C == count mod C`, written without subtraction; INV5 follows from INV4 and INV2. -/
abbrev Buffer.Inv (cap : Nat) (q : Buffer) : Prop :=
  q.count ≤ cap ∧ q.full = decide (q.count = cap) ∧ q.wc < cap ∧ q.rc < cap ∧
  (q.rc + q.count) % cap = q.wc ∧ Memory.wf q.storage = true ∧ Memory.within cap q.storage = true

/-- The invariant of both buffers under legal parameters. -/
abbrev State.BuffersInv (s : State) : Prop :=
  s.params.wf = true ∧ Buffer.Inv s.params.capacity s.rx ∧ Buffer.Inv s.params.capacity s.tx

/-- How the enables, `init` and the status bits hang together: nothing is enabled before INITIALIZE; INITIALIZE unmasks the
receive interrupt for good (R23); the transmit interrupt is armed, and the data register filled, only with the
transmitter enabled (spec/42_uart_glue.md R139); a received byte waits only with the receiver enabled (R138). -/
abbrev State.GlueInv (s : State) : Prop :=
  s.rxIntEn = s.init ∧ (s.init = false → s.rxen = false ∧ s.txen = false) ∧
  (s.txIntEn = true → s.txen = true) ∧ (s.dre = false → s.txen = true) ∧ (s.rxc = true → s.rxen = true)

/-- The progress registers of a WRITE_LINE about to take W1 or W2 (R32, spec/41_transport.md R108): the byte at `wl_idx`
exists, and no more bytes are enqueued than attempted. -/
def lineProgress (n : Byte) (pushed : Nat) (s : State) : Bool :=
  match linePayload n s with
  | some bs => s.wlIdx < (lineBytes s bs).length && s.wlEnq ≤ s.wlIdx + pushed && pushed ≤ s.wlEnq
  | none => false

/-- The micro-step register and the progress registers fit the command at `pc` (R32). -/
def progressOk (s : State) : Bool :=
  match s.ustep with
  | .idle => true
  | .w1 =>
    match fetch s with
    | .ok (.writeLine n) => lineProgress n 0 s && s.txen
    | _ => false
  | .w2 =>
    match fetch s with
    | .ok (.writeByte _) => s.txen
    | .ok (.writeLine n) => lineProgress n 1 s && s.txen
    | _ => false
  | .l2 =>
    match fetch s with
    | .ok (.readLine m) =>
      s.init && (if s.rlEmitted = 0 then decide (0 < s.rx.count) else decide (s.rlEmitted + 1 ≤ m.toNat))
    | _ => false

/-- The invariant of the machine. -/
abbrev State.Inv (s : State) : Prop :=
  s.BuffersInv ∧ s.GlueInv ∧ s.pc ≤ s.prog.length ∧ progressOk s = true

/-- The micro-steps of one command in a row, no other agent between them. -/
def execTimes (i : Instr) : Nat → State → Outcome
  | 0, s => .next s
  | k + 1, s =>
    match exec i s with
    | .next t => execTimes i k t
    | .fault r => .fault r
    | .refused r => .refused r

/-- Commands run one after another, each one micro-step (the ring-buffer commands have no more). -/
def execAll : List Instr → State → Outcome
  | [], s => .next s
  | i :: is, s =>
    match exec i s with
    | .next t => execAll is t
    | .fault r => .fault r
    | .refused r => .refused r

/-- The bytes handed to the line side so far, oldest first: those on the line, and the one still in the data register
(spec/42_uart_glue.md R140). -/
def sentBytes (s : State) : List Byte := s.wireOut ++ (if s.dre then [] else [s.txData])

/-- The words that are illegal at a command boundary, field by field as R65 lists them. -/
def illegalAtBoundary (w : Word) : Prop :=
  opField w = 0x0#4 ∨ opField w = 0xF#4 ∨ rsvField w ≠ 0#3 ∨
  (dirField w = 1#1 ∧ 0x8#4 ≤ opField w ∧ opField w ≤ 0xE#4) ∨
  (immField w ≠ 0#8 ∧ (opField w = 0x1#4 ∨ opField w = 0x3#4 ∨ opField w = 0x4#4 ∨ opField w = 0x5#4 ∨
    opField w = 0x6#4 ∨ opField w = 0xB#4)) ∨
  (opField w = 0x7#4 ∧ 1#8 < immField w) ∨ (opField w = 0x8#4 ∧ 15#8 < immField w) ∨
  (opField w = 0xD#4 ∧ 1#8 < immField w) ∨ opField w = 0xE#4

/-- The rest of the stream is well formed from `pc` on (spec/30_encoding.md R63, R64). -/
def restWf (s : State) : Prop := ∃ is : List Instr, s.prog.drop s.pc = assemble is ∧ codeWf is = true

/-- How many turns the schedule can offer before it has offered every agent one: those held in the state, and those of
five rounds of the free schedule (spec/20_memory.md R47; log entry 6). -/
def waitBound (s : State) : Nat :=
  s.turns.length + ((List.range 5).map (fun j => (roundTurns (s.round + j)).length)).sum

/-- States a run reaches from a launch. -/
inductive Reachable : State → Prop where
  | launch (p : Params) (prog : List Word) (arrivals : List Byte) (turns : List Agent) (h : p.wf = true) :
      Reachable (State.launch p prog arrivals turns)
  | step (s t : State) (h : Reachable s) (hs : Sys2Proof.Machine.step s = .next t) : Reachable t

end Sys2Proof.Machine
end

