-- ==== Sys2Proof/Certificates/Slice0/Obligations.lean ====
section
/-! DEFINITION. The statements for the provers, one `def Obligations.<Name> : Prop` each (OBLIGATIONS.json lists them).
They are about every state and every operand; where a state no run reaches could break one, the invariant it needs is a
premise. -/

open Sys2Proof Sys2Proof.Machine

/-! ### Encoding (spec/30_encoding.md) -/

/-- Words written out from the tables of spec/95_test_vectors.md 2.1, at least one for each family, decode to what they
stand for, and illegal words beside them are refused. -/
def Obligations.SampleWordsDecode : Prop :=
  decodeWord 0x1800#16 = .ok (.cbInit .transmit) ∧ decodeWord 0x2041#16 = .ok (.push .receive 0x41#8) ∧
  decodeWord 0x28FF#16 = .ok (.push .transmit 0xFF#8) ∧ decodeWord 0x3800#16 = .ok (.pop .transmit) ∧
  decodeWord 0x7801#16 = .ok (.setEvent .transmit true) ∧
  decodeWord 0x8003#16 = .ok (.initTransport
    { txEnable := true, rxEnable := true, rxCallback := false, txCallback := false }) ∧
  decodeWord 0x904F#16 = .ok (.writeByte 0x4F#8) ∧ decodeWord 0xA002#16 = .ok (.writeLine 2#8) ∧
  decodeWord 0xE04F#16 = .ok (.payload 0x4F#8) ∧ decodeWord 0xC0FF#16 = .ok (.readLine 255#8) ∧
  decodeWord 0xD000#16 = .ok .gieClr ∧ decodeWord 0xD001#16 = .ok .gieSet ∧
  decodeWord 0x0000#16 = .error .reservedOp ∧ decodeWord 0x2141#16 = .error .reservedBits ∧
  decodeWord 0x8803#16 = .error .directionGiven ∧ decodeWord 0xB001#16 = .error .immediateGiven

/-- Decoding an encoded command gives it back, with every operand at every value: no bit of an encoding is dropped. -/
def Obligations.DecodeOfEncode : Prop :=
  ∀ i : Instr, decodeWord (encode i) = .ok i

/-- The other direction: a legal word has one meaning, and that meaning is encoded by that word alone. -/
def Obligations.EncodeOfDecode : Prop :=
  ∀ (w : Word) (i : Instr), decodeWord w = .ok i → encode i = w

/-- The decoder follows the match and mask of the opcode map: a word is the command of a row iff the bits under the mask
are the row's, and no word belongs to two rows (R62). -/
def Obligations.WordIsOfItsRow : Prop :=
  (∀ w : Word, ∀ r ∈ opcodeMap, w &&& r.mask = r.pattern ↔ ∃ i, decodeWord w = .ok i ∧ rowOf i = r) ∧
  (∀ w : Word, ∀ r₁ ∈ opcodeMap, ∀ r₂ ∈ opcodeMap,
    w &&& r₁.mask = r₁.pattern → w &&& r₂.mask = r₂.pattern → r₁ = r₂)

/-- At a command boundary NORMAL raises F_ILLEGAL, and does nothing else, on exactly the words of R65's list and on a
WRITE_LINE whose payload is malformed (R64). The `fault` register is clear, as it is whenever NORMAL is enabled. -/
def Obligations.IllegalWordsFault : Prop :=
  ∀ (s : State) (w : Word), s.prog[s.pc]? = some w → s.ustep = .idle → s.fault = none →
    ((illegalAtBoundary w ∨ ∃ n, decodeWord w = .ok (.writeLine n) ∧ linePayload n s = none) ↔
      normalStep s = .next { s with fault := some .illegal })

/-- A stream whose commands are well formed never raises F_ILLEGAL, and stays well formed from every `pc` a step
reaches (R63, R64). -/
def Obligations.WellFormedCodeIsNeverIllegal : Prop :=
  ∀ s t : State, restWf s → step s = .next t →
    restWf t ∧ (t.fault = some .illegal → s.fault = some .illegal)

/-! ### Steps and agents (spec/20_memory.md) -/

/-- A step runs the decoded instruction: when the next turn is NORMAL's, NORMAL is enabled and the word at `pc` decodes to
`i`, the step is `exec i`, with that turn used up and nothing else around it. The turns are the model's (log entry 5). -/
def Obligations.StepRunsDecodedInstruction : Prop :=
  ∀ (s : State) (i : Instr) (rest : List Agent), s.turns = .normal :: rest → s.fault = none →
    s.pc < s.prog.length → fetch s = .ok i → step s = exec i { s with turns := rest }

/-- Every order is admitted: whichever agent is enabled, giving it the next turn makes the step its own atomic step; an
agent that is not enabled never has the step, whatever turn it is given (R47). The turns are the model's (log entry 5). -/
def Obligations.AnyEnabledAgentMayStep : Prop :=
  (∀ (s : State) (a : Agent), enabled a s = true → step { s with turns := a :: s.turns } = agentStep a s) ∧
  (∀ (s : State) (a : Agent), enabled a s = false → step { s with turns := a :: s.turns } = step s)

/-- A next state comes from one atomic step of one enabled agent, taken in the state as it is but for the turns used
up (R46). Turns and rounds are the model's (log entry 5). -/
def Obligations.StepIsOneEnabledAgentsStep : Prop :=
  ∀ s t : State, step s = .next t →
    ∃ (a : Agent) (turns : List Agent) (round : Nat), enabled a s = true ∧
      agentStep a { s with turns := turns, round := round } = .next t

/-- The model's schedule finds no agent exactly when none is enabled, so the run goes on as long as one is. The schedule
`nextTurn` (log entries 5 and 6), and that a step then reports the end of the run (log entry 9), are the model's choices. -/
def Obligations.RunIsOverIffNoAgentIsEnabled : Prop :=
  ∀ s : State, nextTurn s = none ↔ ∀ a : Agent, enabled a s = false

/-- The enable conditions of NORMAL, WIRE_RX and WIRE_TX as R47 gives them, and those of the handlers with `irq_rx`,
`irq_tx` written out (R161, R162). That the environment has a byte to deliver is `arrivals ≠ []`, the model's record of the
environment (log entry 7). -/
def Obligations.EnableConditions : Prop :=
  ∀ s : State,
    (enabled .normal s = true ↔ s.fault = none ∧ s.pc < s.prog.length) ∧
    (enabled .rxh s = true ↔ s.gie = true ∧ s.rxIntEn = true ∧ s.rxc = true ∧ s.fault = none) ∧
    (enabled .txh s = true ↔ s.gie = true ∧ s.txIntEn = true ∧ s.dre = true ∧ s.fault = none) ∧
    (enabled .wireRx s = true ↔ s.rxen = true ∧ s.arrivals ≠ []) ∧
    (enabled .wireTx s = true ↔ s.dre = false)

/-- Weak fairness, the one promise about progress (R47): an agent that stays enabled is stepped, after at most as many
steps as the schedule has turns to offer before it has offered every agent one. It holds whatever the free schedule is.
That turns come in rounds is the model's choice (log entries 5 and 6). -/
def Obligations.WeakFairness : Prop :=
  ∀ (a : Agent) (run : Nat → State) (n : Nat), (∀ k, k < n → step (run k) = .next (run (k + 1))) →
    (∀ k, k < n → enabled a (run k) = true) → waitBound (run 0) ≤ n →
    ∃ k s1, k < n ∧ nextTurn (run k) = some (a, s1)

/-! ### Reset, invariants, the end of a run -/

/-- After reset every register holds the value of R35, whatever parameters, stream, arrivals and schedule the run is
launched with; `State.reset` is such a launch; `clean_launch` is exactly that state (R198). -/
def Obligations.ResetRegisterValues : Prop :=
  (∀ (p : Params) (prog : List Word) (arrivals : List Byte) (turns : List Agent),
    let s := State.launch p prog arrivals turns
    (∀ d i, cell s d i = 0x00#8) ∧
    (∀ d, (resolve d s).wc = 0 ∧ (resolve d s).rc = 0 ∧ (resolve d s).count = 0 ∧ (resolve d s).full = false ∧
      (resolve d s).evEn = false) ∧
    s.init = false ∧ s.gie = false ∧ s.fault = none ∧ s.rxen = false ∧ s.txen = false ∧ s.rxIntEn = false ∧
    s.txIntEn = false ∧ s.rxc = false ∧ s.dre = true ∧ s.rxData = 0x00#8 ∧ s.txData = 0x00#8 ∧ s.pc = 0 ∧
    s.ustep = .idle ∧ s.wlIdx = 0 ∧ s.wlEnq = 0 ∧ s.rlEmitted = 0 ∧ s.resp = [] ∧ s.evt = [] ∧ s.wireOut = []) ∧
  (∃ p prog arrivals turns, State.reset = State.launch p prog arrivals turns) ∧
  (∀ s : State, cleanLaunch s = true ↔
    s = { State.launch s.params s.prog s.arrivals s.turns with round := s.round })

/-- The machine's invariant holds at every launch with legal parameters, and at reset. -/
def Obligations.InvariantHoldsAtLaunch : Prop :=
  (∀ (p : Params) (prog : List Word) (arrivals : List Byte) (turns : List Agent), p.wf = true →
    (State.launch p prog arrivals turns).Inv) ∧ State.reset.Inv

/-- Every step, of whichever agent, keeps the machine's invariant, from every state that meets it. -/
def Obligations.StepKeepsInvariant : Prop :=
  ∀ s t : State, s.Inv → step s = .next t → t.Inv

/-- In every state reachable from reset, under legal parameters, INV1 to INV5 of R24 hold for each direction, with INV4
as the spec writes it. -/
def Obligations.ReachableStatesMeetBufferInvariants : Prop :=
  ∀ s : State, Reachable s → ∀ d : Direction,
    (resolve d s).count ≤ s.params.capacity ∧
    ((resolve d s).full = true ↔ (resolve d s).count = s.params.capacity) ∧
    ((resolve d s).wc < s.params.capacity ∧ (resolve d s).rc < s.params.capacity) ∧
    (((resolve d s).wc : Int) - (resolve d s).rc) % s.params.capacity = (resolve d s).count % s.params.capacity ∧
    ((resolve d s).wc = (resolve d s).rc → (resolve d s).count = 0 ∨ (resolve d s).full = true)

/-- Every register fits the width the spec gives it: cursors CW bits, counts NW bits, `wl_idx` and `wl_enq` at most 257
and `rl_emitted` at most 254 while the command that uses them is in progress. -/
def Obligations.RegistersFitTheirWidths : Prop :=
  ∀ s : State, s.Inv →
    (∀ d, (resolve d s).wc < 2 ^ s.params.cursorWidth ∧ (resolve d s).rc < 2 ^ s.params.cursorWidth ∧
      (resolve d s).count < 2 ^ s.params.countWidth) ∧
    (∀ n, fetch s = .ok (.writeLine n) → s.ustep ≠ .idle → s.wlIdx ≤ 257 ∧ s.wlEnq ≤ 257) ∧
    (s.ustep = .l2 → s.rlEmitted ≤ 254)

/-- From a state that meets the invariant a step stops for two reasons only: no agent is enabled, or NORMAL is at a
WRITE_BYTE or WRITE_LINE with the transmitter not enabled. -/
def Obligations.InvariantStatesStopOnlyAsTheSpecSays : Prop :=
  ∀ s : State, s.Inv →
    (∃ t, step s = .next t) ∨ (∀ a, enabled a s = false) ∨
    (step s = .refused .transmitDisabled ∧ s.txen = false ∧
      ((∃ b, fetch s = .ok (.writeByte b)) ∨ ∃ n, fetch s = .ok (.writeLine n)))

/-- How a run ends (R196): in a good end no agent has a step; without a fault, a state in which no agent can step is a good
end, or global interrupts are off while a received byte waits or the transmit interrupt is armed (the only stuck states);
a state with a fault in which no agent can step is never a good end. The names of the answers are the model's (log entry 9). -/
def Obligations.RunEndsWellOrStuckOrHalted : Prop :=
  (∀ s : State, goodEnd s = true → step s = .fault .endOfRun) ∧
  (∀ s : State, s.Inv → s.fault = none → (∀ a, enabled a s = false) →
    (goodEnd s = true ∧ step s = .fault .endOfRun) ∨
    (goodEnd s = false ∧ s.gie = false ∧ (s.rxc = true ∨ s.txIntEn = true) ∧ step s = .fault .stuck)) ∧
  (∀ (s : State) (c : FaultCode), s.fault = some c → (∀ a, enabled a s = false) →
    goodEnd s = false ∧ step s = .fault (.halted c))

/-- What no step ever changes or takes back: the parameters and the stream (R30, R52), `pc` only increases (R31), `init`
and `rx_int_en` stay set (R19, R23), and the output streams only grow (R33). -/
def Obligations.StepNeverTakesBack : Prop :=
  ∀ s t : State, step s = .next t →
    t.params = s.params ∧ t.prog = s.prog ∧ s.pc ≤ t.pc ∧ (s.init = true → t.init = true) ∧
    (s.rxIntEn = true → t.rxIntEn = true) ∧ s.resp <+: t.resp ∧ s.evt <+: t.evt ∧ s.wireOut <+: t.wireOut

/-! ### Faults (spec/60_exceptions.md) -/

/-- A step that raises a fault makes no other change; a recorded fault is never changed; while one is recorded NORMAL, RXH
and TXH have no step (R153); the FAULT output carries the codes of R154. -/
def Obligations.RaisingAFaultChangesNothingElse : Prop :=
  (∀ (i : Instr) (s t : State), exec i s = .next t → t.fault ≠ s.fault →
    s.fault = none ∧ t = { s with fault := t.fault }) ∧
  (∀ (s t : State), s.fault ≠ none → step s = .next t → t.fault = s.fault) ∧
  (∀ s : State, s.fault ≠ none → enabled .normal s = false ∧ enabled .rxh s = false ∧ enabled .txh s = false) ∧
  (∀ s : State, faultOutput s = (if s.fault = some .uninit then 1#3 else if s.fault = some .reinit then 2#3
    else if s.fault = some .initGie then 3#3 else if s.fault = some .cbinitLive then 4#3
    else if s.fault = some .lineCap then 5#3 else if s.fault = some .illegal then 6#3 else 0#3))

/-- The handlers and the line raise no fault: from a state that meets the invariant an enabled RXH, TXH, WIRE_RX or WIRE_TX
completes with the `fault` register as it was (R157). -/
def Obligations.HandlersAndLineNeverFault : Prop :=
  ∀ (s : State) (a : Agent), s.Inv → a ≠ .normal → enabled a s = true →
    ∃ t, agentStep a s = .next t ∧ t.fault = s.fault

/-- WRITE_BYTE, WRITE_LINE, READ_BYTE and READ_LINE before INITIALIZE fault with F_UNINIT and do nothing else; a malformed
WRITE_LINE faults with F_ILLEGAL first (R100, R156). -/
def Obligations.TransportBeforeInitFaults : Prop :=
  ∀ s : State, s.init = false → s.ustep = .idle → s.fault = none →
    (∀ b, exec (.writeByte b) s = .next { s with fault := some .uninit }) ∧
    (∀ n, linePayload n s ≠ none → exec (.writeLine n) s = .next { s with fault := some .uninit }) ∧
    (∀ n, linePayload n s = none → exec (.writeLine n) s = .next { s with fault := some .illegal }) ∧
    exec .readByte s = .next { s with fault := some .uninit } ∧
    (∀ m, exec (.readLine m) s = .next { s with fault := some .uninit })

/-- WRITE_BYTE and WRITE_LINE with the transmitter not enabled have no behaviour in the spec and are refused (R107, U3; in
the first micro-step, log entry 10). -/
def Obligations.WritesWithTransmitterOffAreRefused : Prop :=
  ∀ s : State, s.init = true → s.txen = false → s.ustep = .idle →
    (∀ b, exec (.writeByte b) s = .refused .transmitDisabled) ∧
    (∀ n, linePayload n s ≠ none → exec (.writeLine n) s = .refused .transmitDisabled)

/-! ### Ring-buffer commands (spec/40_ring_buffer.md) -/

/-- CB_INIT with both interrupt sources masked completes: the buffer is put in the empty state, its cells and the other
buffer stay, one `OK` word is appended, `pc` advances by one, nothing else changes (R81, R82).
With either unmasked it raises F_CBINIT_LIVE and does nothing else. -/
def Obligations.CbInitEmptiesOrFaults : Prop :=
  (∀ (d : Direction) (s : State), s.rxIntEn = true ∨ s.txIntEn = true → s.fault = none →
    exec (.cbInit d) s = .next { s with fault := some .cbinitLive }) ∧
  ∀ (d : Direction) (s : State), s.rxIntEn = false → s.txIntEn = false →
    ∃ t, exec (.cbInit d) s = .next t ∧
      resolve d t = { storage := (resolve d s).storage, wc := 0, rc := 0, count := 0, full := false, evEn := false } ∧
      (∀ d', d' ≠ d → resolve d' t = resolve d' s) ∧ contents t d = [] ∧
      t = { s with rx := t.rx, tx := t.tx, resp := s.resp ++ [0x0000#16], pc := s.pc + 1, ustep := .idle }

/-- PUSH on a buffer that is not full completes: the byte goes to the cell of the write cursor and to the end of the
contents, the cursor advances modulo C, the count rises, `full` says whether the buffer is now full, every other cell, the
other buffer and every other register stay (R83, R84). On a full buffer it answers BufferFull and changes no register of
a buffer and no cell (R84 (a)). -/
def Obligations.PushAppendsOrReportsFull : Prop :=
  (∀ (d : Direction) (b : Byte) (s : State), (resolve d s).full = true →
    exec (.push d b) s = .next { s with resp := s.resp ++ [0x4000#16], pc := s.pc + 1, ustep := .idle }) ∧
  ∀ (d : Direction) (b : Byte) (s : State), Buffer.Inv s.params.capacity (resolve d s) → (resolve d s).full = false →
    ∃ t, exec (.push d b) s = .next t ∧
      (resolve d t).wc = ((resolve d s).wc + 1) % s.params.capacity ∧ (resolve d t).rc = (resolve d s).rc ∧
      (resolve d t).count = (resolve d s).count + 1 ∧
      ((resolve d t).full = true ↔ (resolve d s).count + 1 = s.params.capacity) ∧
      (resolve d t).evEn = (resolve d s).evEn ∧
      cell t d (resolve d s).wc = b ∧ (∀ d' j, d' ≠ d ∨ j ≠ (resolve d s).wc → cell t d' j = cell s d' j) ∧
      contents t d = contents s d ++ [b] ∧ (∀ d', d' ≠ d → resolve d' t = resolve d' s) ∧
      t = { s with rx := t.rx, tx := t.tx, resp := s.resp ++ [0x0000#16], pc := s.pc + 1, ustep := .idle }

/-- POP on a buffer that is not empty completes: it answers the oldest byte, the read cursor advances modulo C, the count
falls, `full` is cleared, every cell, the other buffer and every other register stay (R85, R86). On an empty buffer it
answers BufferEmpty and changes nothing of the buffers (R86 (a)). -/
def Obligations.PopTakesOldestOrReportsEmpty : Prop :=
  (∀ (d : Direction) (s : State), (resolve d s).count = 0 →
    exec (.pop d) s = .next { s with resp := s.resp ++ [0x8000#16], pc := s.pc + 1, ustep := .idle }) ∧
  ∀ (d : Direction) (s : State), Buffer.Inv s.params.capacity (resolve d s) → 0 < (resolve d s).count →
    ∃ (t : State) (b : Byte), exec (.pop d) s = .next t ∧ b = cell s d (resolve d s).rc ∧
      contents s d = b :: contents t d ∧
      resolve d t = { resolve d s with rc := ((resolve d s).rc + 1) % s.params.capacity,
                                       count := (resolve d s).count - 1, full := false } ∧
      (∀ d', d' ≠ d → resolve d' t = resolve d' s) ∧
      t = { s with rx := t.rx, tx := t.tx, resp := s.resp ++ [(0x00#8 ++ b : Word)], pc := s.pc + 1, ustep := .idle }

/-- LEN answers the count, zero-extended to ten bits, and writes nothing; the count is at most C wherever the invariant
holds (R87). -/
def Obligations.LenAnswersTheCount : Prop :=
  (∀ d : Direction, encode (.len d) = 0x4000#16 ||| ((0#15 ++ d.bit : Word) <<< 11)) ∧
  (∀ (d : Direction) (s : State), exec (.len d) s = .next { s with
    resp := s.resp ++ [(0#6 ++ BitVec.ofNat 10 (resolve d s).count : Word)], pc := s.pc + 1, ustep := .idle }) ∧
  (∀ (d : Direction) (s : State), s.Inv →
    (BitVec.ofNat 10 (resolve d s).count).toNat = (resolve d s).count ∧ (resolve d s).count ≤ s.params.capacity)

/-- IS_FULL answers the flag, which equals `count == C` wherever the invariant holds, and writes nothing (R88). -/
def Obligations.IsFullAnswersTheFlag : Prop :=
  (∀ d : Direction, encode (.isFull d) = 0x5000#16 ||| ((0#15 ++ d.bit : Word) <<< 11)) ∧
  (∀ (d : Direction) (s : State), exec (.isFull d) s = .next { s with
    resp := s.resp ++ [if (resolve d s).full then 0x0001#16 else 0x0000#16], pc := s.pc + 1, ustep := .idle }) ∧
  (∀ (d : Direction) (s : State), s.Inv → ((resolve d s).full = true ↔ (resolve d s).count = s.params.capacity))

/-- IS_EMPTY answers whether the count is 0 and writes nothing (R89). -/
def Obligations.IsEmptyAnswersCountZero : Prop :=
  (∀ d : Direction, encode (.isEmpty d) = 0x6000#16 ||| ((0#15 ++ d.bit : Word) <<< 11)) ∧
  (∀ (d : Direction) (s : State), exec (.isEmpty d) s = .next { s with
    resp := s.resp ++ [if (resolve d s).count = 0 then 0x0001#16 else 0x0000#16], pc := s.pc + 1, ustep := .idle })

/-- SET_EVENT writes the callback bit of its direction and nothing else (R91). -/
def Obligations.SetEventWritesTheCallbackBit : Prop :=
  ∀ (d : Direction) (en : Bool) (s : State), ∃ t, exec (.setEvent d en) s = .next t ∧
    resolve d t = { resolve d s with evEn := en } ∧ (∀ d', d' ≠ d → resolve d' t = resolve d' s) ∧
    t = { s with rx := t.rx, tx := t.tx, resp := s.resp ++ [0x0000#16], pc := s.pc + 1, ustep := .idle }

/-- The round trip: pushing `b1 .. bn` (n ≤ C) into an empty buffer and then popping n times answers `b1 .. bn` in the
same order (R25). -/
def Obligations.PushesThenPopsGiveTheBytesBack : Prop :=
  ∀ (d : Direction) (bs : List Byte) (s : State), s.BuffersInv → (resolve d s).count = 0 →
    bs.length ≤ s.params.capacity →
    ∃ t, execAll (bs.map (.push d) ++ bs.map (fun _ => .pop d)) s = .next t ∧
      t.resp = s.resp ++ bs.map (fun _ => 0x0000#16) ++ bs.map (fun b => (0x00#8 ++ b : Word)) ∧
      t.pc = s.pc + 2 * bs.length ∧ (resolve d t).count = 0

/-! ### Transport commands (spec/41_transport.md) -/

/-- INITIALIZE, once and with global interrupts off, completes with everything R102 writes and nothing else: both buffers
empty with their cells kept, the line enables and the callbacks from the configuration, the receive interrupt unmasked. -/
def Obligations.InitializeSetsUpTheTransport : Prop :=
  ∀ (cfg : TransportConfig) (s : State), s.init = false → s.gie = false →
    exec (.initTransport cfg) s = .next { s with
      rx := { storage := s.rx.storage, wc := 0, rc := 0, count := 0, full := false, evEn := cfg.rxCallback }
      tx := { storage := s.tx.storage, wc := 0, rc := 0, count := 0, full := false, evEn := cfg.txCallback }
      txen := cfg.txEnable, rxen := cfg.rxEnable, rxIntEn := true, init := true
      resp := s.resp ++ [0x0000#16], pc := s.pc + 1, ustep := .idle }

/-- A second INITIALIZE raises F_REINIT, whatever `gie` is; a first one with `gie` on raises F_INIT_GIE (R102, R156). -/
def Obligations.InitializeOutOfOrderFaults : Prop :=
  ∀ (cfg : TransportConfig) (s : State), s.fault = none →
    (s.init = true → exec (.initTransport cfg) s = .next { s with fault := some .reinit }) ∧
    (s.init = false → s.gie = true → exec (.initTransport cfg) s = .next { s with fault := some .initGie })

/-- WRITE_BYTE's first micro-step, on a Transmit buffer that is not full, appends the byte at the write cursor and does
nothing else: no response, no arming, `pc` where it was (R105, R106). -/
def Obligations.WriteByteFirstPushes : Prop :=
  ∀ (b : Byte) (s : State), s.init = true → s.txen = true → s.ustep = .idle →
    Buffer.Inv s.params.capacity s.tx → s.tx.full = false →
    ∃ t, exec (.writeByte b) s = .next t ∧ contents t .transmit = contents s .transmit ++ [b] ∧
      t.tx.wc = (s.tx.wc + 1) % s.params.capacity ∧ t.tx.rc = s.tx.rc ∧ t.tx.count = s.tx.count + 1 ∧
      (t.tx.full = true ↔ s.tx.count + 1 = s.params.capacity) ∧ t.tx.evEn = s.tx.evEn ∧
      cell t .transmit s.tx.wc = b ∧ (∀ j, j ≠ s.tx.wc → cell t .transmit j = cell s .transmit j) ∧
      t = { s with tx := t.tx, ustep := .w2 }

/-- WRITE_BYTE's second micro-step arms the transmit interrupt and responds, whatever a handler did to the buffer in
between; on a full Transmit buffer the first micro-step ends the command with BufferFull and nothing armed (R105). -/
def Obligations.WriteByteThenArmsOrReportsFull : Prop :=
  ∀ (b : Byte) (s : State),
    (s.ustep = .w2 → exec (.writeByte b) s = .next { s with
      txIntEn := true, resp := s.resp ++ [0x0000#16], pc := s.pc + 1, ustep := .idle }) ∧
    (s.init = true → s.txen = true → s.ustep = .idle → s.tx.full = true → exec (.writeByte b) s = .next { s with
      resp := s.resp ++ [0x4000#16], pc := s.pc + 1, ustep := .idle })

/-- WRITE_LINE's micro-steps (R108). First L0 with W1: with nothing to write the command ends at once; otherwise the first
byte of `payload ++ LINE_TERM` is appended, or, on a full buffer, dropped, which ends a line of one byte. -/
def Obligations.WriteLineFirstMicroStep : Prop :=
  ∀ (n : Byte) (s : State) (bs : List Byte), s.init = true → s.txen = true → s.ustep = .idle →
    linePayload n s = some bs → Buffer.Inv s.params.capacity s.tx →
    (bs ++ s.params.lineTerm = [] → exec (.writeLine n) s = .next { s with
      wlIdx := 0, wlEnq := 0, resp := s.resp ++ [0x0000#16], pc := s.pc + (1 + n.toNat), ustep := .idle }) ∧
    (∀ b rest, bs ++ s.params.lineTerm = b :: rest → s.tx.full = false →
      ∃ t, exec (.writeLine n) s = .next t ∧ contents t .transmit = contents s .transmit ++ [b] ∧
        t.tx.wc = (s.tx.wc + 1) % s.params.capacity ∧ t.tx.rc = s.tx.rc ∧ t.tx.count = s.tx.count + 1 ∧
        (t.tx.full = true ↔ s.tx.count + 1 = s.params.capacity) ∧ t.tx.evEn = s.tx.evEn ∧
        cell t .transmit s.tx.wc = b ∧ (∀ j, j ≠ s.tx.wc → cell t .transmit j = cell s .transmit j) ∧
        t = { s with tx := t.tx, wlIdx := 0, wlEnq := 1, ustep := .w2 }) ∧
    (∀ b rest, bs ++ s.params.lineTerm = b :: rest → s.tx.full = true →
      exec (.writeLine n) s = .next (if rest = [] then { s with
          wlIdx := 1, wlEnq := 0, resp := s.resp ++ [0x0000#16], pc := s.pc + (1 + n.toNat), ustep := .idle }
        else { s with wlIdx := 1, wlEnq := 0, ustep := .w1 }))

/-- WRITE_LINE's W1 at a later byte, in any state another agent may have left: with room the byte at `wl_idx` is appended and
counted, whatever happened to the bytes before it; on a full buffer it is dropped, and at the last byte the line ends with
the number of bytes enqueued (R108, R110 (a)). -/
def Obligations.WriteLineLaterMicroStep : Prop :=
  ∀ (n : Byte) (s : State) (bs : List Byte) (b : Byte), s.ustep = .w1 → linePayload n s = some bs →
    (bs ++ s.params.lineTerm)[s.wlIdx]? = some b → Buffer.Inv s.params.capacity s.tx →
    (s.tx.full = false →
      ∃ t, exec (.writeLine n) s = .next t ∧ contents t .transmit = contents s .transmit ++ [b] ∧
        t.tx.wc = (s.tx.wc + 1) % s.params.capacity ∧ t.tx.rc = s.tx.rc ∧ t.tx.count = s.tx.count + 1 ∧
        (t.tx.full = true ↔ s.tx.count + 1 = s.params.capacity) ∧ t.tx.evEn = s.tx.evEn ∧
        cell t .transmit s.tx.wc = b ∧ (∀ j, j ≠ s.tx.wc → cell t .transmit j = cell s .transmit j) ∧
        t = { s with tx := t.tx, wlEnq := s.wlEnq + 1, ustep := .w2 }) ∧
    (s.tx.full = true →
      exec (.writeLine n) s = .next (if s.wlIdx + 1 = (bs ++ s.params.lineTerm).length then { s with
          wlIdx := s.wlIdx + 1, resp := s.resp ++ [(0#6 ++ BitVec.ofNat 10 s.wlEnq : Word)],
          pc := s.pc + (1 + n.toNat), ustep := .idle }
        else { s with wlIdx := s.wlIdx + 1, ustep := .w1 }))

/-- WRITE_LINE's W2 arms the transmit interrupt and goes on to the next byte, or ends the line with the number of bytes
enqueued (R108). -/
def Obligations.WriteLineArmsAfterEachByte : Prop :=
  ∀ (n : Byte) (s : State) (bs : List Byte), s.ustep = .w2 → linePayload n s = some bs →
    exec (.writeLine n) s = .next (if s.wlIdx + 1 = (bs ++ s.params.lineTerm).length then { s with
        txIntEn := true, wlIdx := s.wlIdx + 1, resp := s.resp ++ [(0#6 ++ BitVec.ofNat 10 s.wlEnq : Word)],
        pc := s.pc + (1 + n.toNat), ustep := .idle }
      else { s with txIntEn := true, wlIdx := s.wlIdx + 1, ustep := .w1 })

/-- The whole WRITE_LINE with no other agent between its micro-steps: as many bytes of `payload ++ LINE_TERM` as there is
room for are enqueued in order, the rest is dropped, the response is `OK` with their number, the transmit interrupt is
armed if any byte went in, and nothing else changes (R108, R110). -/
def Obligations.WriteLineEnqueuesWhatFits : Prop :=
  ∀ (n : Byte) (s : State) (bs : List Byte), s.init = true → s.txen = true → s.ustep = .idle →
    s.params.wf = true → Buffer.Inv s.params.capacity s.tx → linePayload n s = some bs →
    let seq := bs ++ s.params.lineTerm
    let k := min seq.length (s.params.capacity - s.tx.count)
    ∃ (steps : Nat) (t : State), execTimes (.writeLine n) steps s = .next t ∧
      contents t .transmit = contents s .transmit ++ seq.take k ∧ t.tx.evEn = s.tx.evEn ∧ t.tx.rc = s.tx.rc ∧
      t.tx.wc = (s.tx.wc + k) % s.params.capacity ∧ t.tx.count = s.tx.count + k ∧
      (t.tx.full = true ↔ s.tx.count + k = s.params.capacity) ∧
      (∀ j, (∀ x, x < k → j ≠ (s.tx.wc + x) % s.params.capacity) → cell t .transmit j = cell s .transmit j) ∧
      t = { s with
        tx := t.tx, txIntEn := s.txIntEn || decide (0 < k), wlIdx := seq.length, wlEnq := k
        resp := s.resp ++ [BitVec.ofNat 16 k], pc := s.pc + (1 + n.toNat), ustep := .idle }

/-- READ_BYTE answers and removes the oldest received byte, or answers BufferEmpty with nothing changed (R111). -/
def Obligations.ReadByteTakesTheOldestByte : Prop :=
  ∀ s : State, s.init = true → Buffer.Inv s.params.capacity s.rx →
    (s.rx.count = 0 → exec .readByte s = .next { s with
      resp := s.resp ++ [0x8000#16], pc := s.pc + 1, ustep := .idle }) ∧
    (0 < s.rx.count → ∃ (t : State) (b : Byte), exec .readByte s = .next t ∧
      contents s .receive = b :: contents t .receive ∧
      t = { s with
        rx := { s.rx with rc := (s.rx.rc + 1) % s.params.capacity, count := s.rx.count - 1, full := false }
        resp := s.resp ++ [(0x00#8 ++ b : Word)], pc := s.pc + 1, ustep := .idle })

/-- READ_LINE's first micro-step: BufferEmpty on an empty buffer, whatever the capacity; otherwise the loop begins
(R113, R114 (d)). -/
def Obligations.ReadLineTestsEmptinessFirst : Prop :=
  ∀ (m : Byte) (s : State), s.init = true → s.ustep = .idle →
    (s.rx.count = 0 → exec (.readLine m) s = .next { s with
      resp := s.resp ++ [0x8000#16], pc := s.pc + 1, ustep := .idle }) ∧
    (0 < s.rx.count → exec (.readLine m) s = .next { s with rlEmitted := 0, ustep := .l2 })

/-- READ_LINE's repeated micro-step: on an empty buffer the terminator and the count; with a byte waiting and no room for
it and the terminator F_LINE_CAP, the byte left in the buffer; otherwise one more byte (R113, R114 (e)). -/
def Obligations.ReadLineLoopMicroStep : Prop :=
  ∀ (m : Byte) (s : State), s.ustep = .l2 → s.fault = none → Buffer.Inv s.params.capacity s.rx →
    (s.rx.count = 0 → exec (.readLine m) s = .next { s with
      resp := s.resp ++ [(0xC0#8 ++ s.params.readTerm : Word), (0#6 ++ BitVec.ofNat 10 s.rlEmitted : Word)]
      pc := s.pc + 1, ustep := .idle }) ∧
    (0 < s.rx.count → s.rlEmitted + 2 > m.toNat →
      exec (.readLine m) s = .next { s with fault := some .lineCap }) ∧
    (0 < s.rx.count → s.rlEmitted + 2 ≤ m.toNat → ∃ (t : State) (b : Byte), exec (.readLine m) s = .next t ∧
      contents s .receive = b :: contents t .receive ∧
      t = { s with
        rx := { s.rx with rc := (s.rx.rc + 1) % s.params.capacity, count := s.rx.count - 1, full := false }
        rlEmitted := s.rlEmitted + 1, resp := s.resp ++ [(0xC0#8 ++ b : Word)] })

/-- The whole READ_LINE with no arrival during it. With room for the held bytes and the terminator it delivers every held
byte in order, the terminator and the count, and empties the buffer. With less room it faults with F_LINE_CAP after
`max(m, 1) - 1` bytes, and the rest stays in the buffer (R113, R114). -/
def Obligations.ReadLineDeliversTheHeldBytes : Prop :=
  ∀ (m : Byte) (s : State), s.init = true → s.ustep = .idle → s.fault = none → s.params.wf = true →
    Buffer.Inv s.params.capacity s.rx → 0 < s.rx.count →
    (s.rx.count + 1 ≤ m.toNat → ∃ steps : Nat, execTimes (.readLine m) steps s = .next { s with
      rx := { s.rx with rc := (s.rx.rc + s.rx.count) % s.params.capacity, count := 0, full := false }
      rlEmitted := s.rx.count
      resp := s.resp ++ (contents s .receive).map (fun b => (0xC0#8 ++ b : Word)) ++
        [(0xC0#8 ++ s.params.readTerm : Word), BitVec.ofNat 16 s.rx.count]
      pc := s.pc + 1, ustep := .idle }) ∧
    (m.toNat < s.rx.count + 1 →
      let k := max m.toNat 1 - 1
      ∃ (steps : Nat) (t : State), execTimes (.readLine m) steps s = .next t ∧
        contents t .receive = (contents s .receive).drop k ∧
        t = { s with
          rx := { s.rx with
            rc := (s.rx.rc + k) % s.params.capacity, count := s.rx.count - k, full := s.rx.full && decide (k = 0) }
          rlEmitted := k, ustep := .l2, fault := some .lineCap
          resp := s.resp ++ ((contents s .receive).take k).map (fun b => (0xC0#8 ++ b : Word)) })

/-- GIE_CLR and GIE_SET write `gie`, respond `OK`, and change nothing else; with `gie` off neither handler is enabled
(R115, R116). -/
def Obligations.GieCommandsWriteTheGlobalEnable : Prop :=
  (∀ s : State, exec .gieClr s = .next { s with
    gie := false, resp := s.resp ++ [0x0000#16], pc := s.pc + 1, ustep := .idle }) ∧
  (∀ s : State, exec .gieSet s = .next { s with
    gie := true, resp := s.resp ++ [0x0000#16], pc := s.pc + 1, ustep := .idle }) ∧
  (∀ s : State, s.gie = false → enabled .rxh s = false ∧ enabled .txh s = false)

/-- PAYLOAD met as a command raises F_ILLEGAL and does nothing else: that is its whole effect (R109). -/
def Obligations.PayloadOutOfPlaceFaults : Prop :=
  ∀ (b : Byte) (s : State), s.fault = none → exec (.payload b) s = .next { s with fault := some .illegal }

/-! ### Handlers, events and the line (spec/60_exceptions.md, spec/42_uart_glue.md) -/

/-- RXH reads the received byte and clears `rxc`; the byte is appended to the Receive buffer with one Receive event if a
callback is registered, or, when the buffer is full, dropped with no event; nothing else changes (R164). -/
def Obligations.ReceiveHandlerPushesTheByte : Prop :=
  ∀ s : State, Buffer.Inv s.params.capacity s.rx →
    (s.rx.full = true → agentStep .rxh s = .next { s with rxc := false }) ∧
    (s.rx.full = false → ∃ t, agentStep .rxh s = .next t ∧
      contents t .receive = contents s .receive ++ [s.rxData] ∧ t.rx.rc = s.rx.rc ∧ t.rx.evEn = s.rx.evEn ∧
      t.rx.wc = (s.rx.wc + 1) % s.params.capacity ∧ t.rx.count = s.rx.count + 1 ∧
      (t.rx.full = true ↔ s.rx.count + 1 = s.params.capacity) ∧
      (∀ j, j ≠ s.rx.wc → cell t .receive j = cell s .receive j) ∧
      t = { s with rx := t.rx, rxc := false, evt := s.evt ++ (if s.rx.evEn then [.receive] else []) })

/-- TXH, entered with the data register empty, hands the oldest byte of the Transmit buffer to the data register; a pop
that drains the buffer disarms the interrupt and, if a callback is registered, pulses the Transmit event once; entered with
the buffer empty it only disarms (R165). -/
def Obligations.TransmitHandlerSendsOrDisarms : Prop :=
  ∀ s : State, Buffer.Inv s.params.capacity s.tx → s.dre = true →
    (s.tx.count = 0 → agentStep .txh s = .next { s with txIntEn := false }) ∧
    (0 < s.tx.count → ∃ (t : State) (b : Byte), agentStep .txh s = .next t ∧
      contents s .transmit = b :: contents t .transmit ∧
      t = { s with
        tx := { s.tx with rc := (s.tx.rc + 1) % s.params.capacity, count := s.tx.count - 1, full := false }
        txData := b, dre := false
        txIntEn := s.txIntEn && decide (s.tx.count ≠ 1)
        evt := s.evt ++ (if s.tx.count = 1 ∧ s.tx.evEn = true then [.transmit] else []) })

/-- WIRE_RX `rx_arrive`: enabled iff the receiver is enabled and a byte is there; the byte is taken when none waits, and
otherwise lost with no register changed (R138). The list of bytes to arrive is the model's (log entries 7 and 25). -/
def Obligations.ArrivingByteIsTakenOrLost : Prop :=
  ∀ (s : State) (b : Byte) (bs : List Byte), s.arrivals = b :: bs →
    (enabled .wireRx s = s.rxen) ∧
    (s.rxc = false → agentStep .wireRx s = .next { s with arrivals := bs, rxData := b, rxc := true }) ∧
    (s.rxc = true → agentStep .wireRx s = .next { s with arrivals := bs })

/-- WIRE_TX `tx_shift`: enabled iff the data register is full, whatever `txen` is; the byte goes onto the line and the
data register is empty again (R139). -/
def Obligations.ShiftPutsTheByteOnTheLine : Prop :=
  ∀ s : State, enabled .wireTx s = !s.dre ∧
    agentStep .wireTx s = .next { s with wireOut := s.wireOut ++ [s.txData], dre := true }

/-- The primitives of the contract: `hardware_write` fills an empty data register and has no meaning on a full one,
`hardware_read` answers the received byte and clears `rxc`, `enable` writes the two line enables, `status_flags` reads
(R131 to R134), `program_baud` changes nothing (R136). Refusing the write on a full register is U4's treatment (log entry 11). -/
def Obligations.ContractPrimitives : Prop :=
  (∀ (b : Byte) (s : State), s.dre = true → hardwareWrite b s = .next { s with txData := b, dre := false }) ∧
  (∀ (b : Byte) (s : State), s.dre = false → hardwareWrite b s = .refused .dataRegisterBusy) ∧
  (∀ s : State, hardwareRead s = (s.rxData, { s with rxc := false })) ∧
  (∀ (tx rx : Bool) (s : State), enableLine tx rx s = { s with txen := tx, rxen := rx }) ∧
  (∀ s : State, statusFlags s = (s.dre, s.rxc)) ∧
  (∀ s : State, programBaud s = s)

/-- When both handlers are enabled the two orders reach the same state but for the order of the events, and either
handler leaves the other enabled (R163). -/
def Obligations.HandlersCommute : Prop :=
  ∀ s : State, s.Inv → enabled .rxh s = true → enabled .txh s = true →
    ∃ t₁ t₂ u₁ u₂, agentStep .rxh s = .next t₁ ∧ enabled .txh t₁ = true ∧ agentStep .txh t₁ = .next u₁ ∧
      agentStep .txh s = .next t₂ ∧ enabled .rxh t₂ = true ∧ agentStep .rxh t₂ = .next u₂ ∧
      u₁ = { u₂ with evt := u₁.evt } ∧ u₁.evt.Perm u₂.evt

/-- The frame of a byte is ten bit-times, start bit 0, the data bits least significant first, stop bit 1, and reading a
frame back gives the byte; a frame with its stop bit 0 delivers none (R141, R142). The layout is the spec's general
knowledge K1 (log entry 14). -/
def Obligations.FrameRoundTrip : Prop :=
  (∀ b : Byte, (frame b).length = 10 ∧ (frame b)[0]? = some false ∧ (frame b)[9]? = some true ∧
    (∀ i : Fin 8, (frame b)[i.val + 1]? = some (b.getLsbD i)) ∧ unframe (frame b) = some b) ∧
  (∀ bits : List Bool, bits[9]? = some false → unframe bits = none)

/-! ### Whole-machine rules -/

/-- FIFO order in each direction: a step leaves a buffer's contents as they are, appends one byte at the end, removes the
first, or, by CB_INIT of that direction or INITIALIZE alone, empties it (R25). -/
def Obligations.ContentsAreFifo : Prop :=
  ∀ (s t : State) (d : Direction), s.Inv → step s = .next t →
    contents t d = contents s d ∨ (∃ b, contents t d = contents s d ++ [b]) ∨ (∃ b, contents s d = b :: contents t d) ∨
    (contents t d = [] ∧ (∃ s1, nextTurn s = some (.normal, s1)) ∧
      (fetch s = .ok (.cbInit d) ∨ ∃ cfg, fetch s = .ok (.initTransport cfg)))

/-- End-to-end order: the bytes handed to the line side, those on the line and then the one still in the data register, are
exactly the bytes TXH pops, in order. A turn of TXH on a Transmit buffer that holds a byte moves its first byte there; no
other turn adds, removes or moves any (R140). -/
def Obligations.LineCarriesThePoppedBytesInOrder : Prop :=
  ∀ s t : State, s.Inv → step s = .next t →
    (∀ s1, nextTurn s = some (.txh, s1) → contents s .transmit ≠ [] →
      ∃ b, contents s .transmit = b :: contents t .transmit ∧ sentBytes t = sentBytes s ++ [b]) ∧
    ((∀ s1, nextTurn s = some (.txh, s1) → contents s .transmit = []) → sentBytes t = sentBytes s)

/-- What cannot change behind NORMAL's back: no other agent lowers the Receive count or raises the Transmit count, or
touches NORMAL's registers (R53). -/
def Obligations.OthersOnlyFillReceiveAndDrainTransmit : Prop :=
  ∀ (a : Agent) (s t : State), a ≠ .normal → agentStep a s = .next t →
    s.rx.count ≤ t.rx.count ∧ t.tx.count ≤ s.tx.count ∧
    t.pc = s.pc ∧ t.ustep = s.ustep ∧ t.wlIdx = s.wlIdx ∧ t.wlEnq = s.wlEnq ∧ t.rlEmitted = s.rlEmitted ∧
    t.resp = s.resp ∧ t.gie = s.gie ∧ t.init = s.init

/-- The frame of every command: NORMAL never touches the data registers, the status bits, the events, the line, the
parameters, the stream, the arrivals or the schedule (R34, R93). -/
def Obligations.CommandsLeaveTheLineSideAlone : Prop :=
  ∀ (i : Instr) (s t : State), exec i s = .next t →
    t.rxc = s.rxc ∧ t.rxData = s.rxData ∧ t.dre = s.dre ∧ t.txData = s.txData ∧ t.evt = s.evt ∧
    t.wireOut = s.wireOut ∧ t.params = s.params ∧ t.prog = s.prog ∧ t.arrivals = s.arrivals ∧ t.turns = s.turns ∧
    t.round = s.round

/-- The bytes a command stores: PUSH at most the cell of its direction's write cursor, WRITE_BYTE and WRITE_LINE at most
the cell of the Transmit write cursor, every other command none. -/
def Obligations.CommandsStoreAtTheWriteCursorOnly : Prop :=
  ∀ (i : Instr) (s t : State), exec i s = .next t → ∀ (d : Direction) (j : Nat),
    (match i with
      | .push d' _ => d ≠ d' ∨ j ≠ (resolve d s).wc
      | .writeByte _ | .writeLine _ => d ≠ .transmit ∨ j ≠ s.tx.wc
      | .cbInit _ | .pop _ | .len _ | .isFull _ | .isEmpty _ | .setEvent _ _ | .initTransport _ | .readByte
      | .readLine _ | .gieClr | .gieSet | .payload _ => True) →
    cell t d j = cell s d j

/-- The frame of the handlers and the line, as the access table of R34 has it: RXH stores at most to the cell of the Receive
write cursor, TXH and the line to no cell. -/
def Obligations.HandlersAndLineFrame : Prop :=
  ∀ s t : State,
    (agentStep .rxh s = .next t → t = { s with rx := t.rx, rxc := false, evt := t.evt } ∧
      t.rx.rc = s.rx.rc ∧ t.rx.evEn = s.rx.evEn ∧
      (∀ j, j ≠ s.rx.wc → cell t .receive j = cell s .receive j)) ∧
    (agentStep .txh s = .next t → t = { s with
        tx := t.tx, txIntEn := t.txIntEn, txData := t.txData, dre := t.dre, evt := t.evt } ∧
      t.tx.storage = s.tx.storage ∧ t.tx.wc = s.tx.wc ∧ t.tx.evEn = s.tx.evEn) ∧
    (agentStep .wireRx s = .next t → t = { s with arrivals := t.arrivals, rxData := t.rxData, rxc := t.rxc }) ∧
    (agentStep .wireTx s = .next t → t = { s with wireOut := t.wireOut, dre := true })
end

