-- ==== Sys2Proof/Laws/Memory.lean ====
section
/-! SUPPORT. Storage arrays: read after write, the frame of a write, and that a write keeps the canonical form. -/

namespace Sys2Proof.Machine

theorem Memory.wfFrom_weaken {lo lo' : Nat} {m : Memory} (h : Memory.wfFrom lo m = true) (hl : lo' ≤ lo) :
    Memory.wfFrom lo' m = true := by
  cases m with
  | nil => rfl
  | cons c cs => simp [Memory.wfFrom] at h ⊢; exact ⟨⟨by omega, h.1.2⟩, h.2⟩

theorem Memory.read_below {lo i : Nat} {m : Memory} (h : Memory.wfFrom lo m = true) (hi : i < lo) : m.read i = 0#8 := by
  induction m generalizing lo with
  | nil => rfl
  | cons c cs ih =>
    simp [Memory.wfFrom] at h
    have : c.1 ≠ i := by omega
    simp [Memory.read, this, ih h.2 (by omega)]

/-- Read after write of the same cell. -/
theorem Memory.read_write_same {lo i : Nat} {m : Memory} (h : Memory.wfFrom lo m = true) (b : Byte) :
    (m.write i b).read i = b := by
  induction m generalizing lo with
  | nil => by_cases hb : b = 0#8 <;> simp [Memory.write, Memory.cons, Memory.read, hb]
  | cons c cs ih =>
    simp [Memory.wfFrom] at h
    by_cases h1 : i < c.1
    · by_cases hb : b = 0#8
      · subst hb
        have : c.1 ≠ i := by omega
        simp [Memory.write, Memory.cons, Memory.read, h1, this, Memory.read_below h.2 (by omega : i < c.1 + 1)]
      · simp [Memory.write, Memory.cons, Memory.read, h1, hb]
    · by_cases h2 : i = c.1
      · by_cases hb : b = 0#8
        · simp [Memory.write, Memory.cons, h2, hb, Memory.read_below h.2 (by omega : c.1 < c.1 + 1)]
        · simp [Memory.write, Memory.cons, Memory.read, h2, hb]
      · have : c.1 ≠ i := fun e => h2 e.symm
        simp [Memory.write, Memory.read, h1, h2, this, ih h.2]

/-- A write leaves every other cell. -/
theorem Memory.read_write_other (m : Memory) {i j : Nat} (b : Byte) (h : j ≠ i) : (m.write i b).read j = m.read j := by
  have h' : i ≠ j := fun e => h e.symm
  induction m with
  | nil => by_cases hb : b = 0#8 <;> simp [Memory.write, Memory.cons, Memory.read, hb, h']
  | cons c cs ih =>
    by_cases h1 : i < c.1
    · by_cases hb : b = 0#8 <;> simp [Memory.write, Memory.cons, Memory.read, h1, hb, h']
    · by_cases h2 : i = c.1
      · have : c.1 ≠ j := by omega
        by_cases hb : b = 0#8 <;> simp [Memory.write, Memory.cons, Memory.read, h2, hb, this]
      · simp [Memory.write, Memory.read, h1, h2, ih]

theorem Memory.write_wfFrom {lo i : Nat} {m : Memory} (b : Byte) (h : Memory.wfFrom lo m = true) (hi : lo ≤ i) :
    Memory.wfFrom lo (m.write i b) = true := by
  induction m generalizing lo with
  | nil => by_cases hb : b = 0#8 <;> simp [Memory.write, Memory.cons, Memory.wfFrom, hb, hi]
  | cons c cs ih =>
    simp [Memory.wfFrom] at h
    by_cases h1 : i < c.1
    · by_cases hb : b = 0#8
      · simp [Memory.write, Memory.cons, Memory.wfFrom, h1, hb, h]
      · simp [Memory.write, Memory.cons, Memory.wfFrom, h1, hb, h, hi]
    · by_cases h2 : i = c.1
      · by_cases hb : b = 0#8
        · simp [Memory.write, Memory.cons, h2, hb]
          exact Memory.wfFrom_weaken h.2 (by omega)
        · simp [Memory.write, Memory.cons, Memory.wfFrom, h2, hb, h]
      · simp [Memory.write, Memory.wfFrom, h1, h2, h]
        exact ih h.2 (by omega)

/-- A write keeps the canonical form. -/
theorem Memory.write_wf {m : Memory} (i : Nat) (b : Byte) (h : m.wf = true) : (m.write i b).wf = true :=
  Memory.write_wfFrom b h (Nat.zero_le i)

/-- A write of an existing cell lists existing cells only. -/
theorem Memory.write_within {cap i : Nat} {m : Memory} (b : Byte) (h : m.within cap = true) (hi : i < cap) :
    (m.write i b).within cap = true := by
  induction m with
  | nil => by_cases hb : b = 0#8 <;> simp [Memory.write, Memory.cons, Memory.within, hb, hi]
  | cons c cs ih =>
    simp [Memory.within] at h ih
    by_cases h1 : i < c.1
    · by_cases hb : b = 0#8 <;> simp [Memory.write, Memory.cons, Memory.within, h1, hb] <;> grind
    · by_cases h2 : i = c.1
      · by_cases hb : b = 0#8 <;> simp [Memory.write, Memory.cons, Memory.within, h2, hb] <;> grind
      · simp [Memory.write, Memory.within, h1, h2]
        exact ⟨h.1, ih h.2⟩

/-- Canonical arrays that read alike are the same data. -/
theorem Memory.ext_of_read {lo : Nat} {m m' : Memory} (h : Memory.wfFrom lo m = true) (h' : Memory.wfFrom lo m' = true)
    (hr : ∀ i, m.read i = m'.read i) : m = m' := by
  induction m generalizing lo m' with
  | nil =>
    cases m' with
    | nil => rfl
    | cons c cs =>
      simp [Memory.wfFrom] at h'
      have := hr c.1
      simp [Memory.read] at this
      exact absurd this.symm h'.1.2
  | cons c cs ih =>
    cases m' with
    | nil =>
      simp [Memory.wfFrom] at h
      have := hr c.1
      simp [Memory.read] at this
      exact absurd this h.1.2
    | cons c' cs' =>
      simp [Memory.wfFrom] at h h'
      have hk : c.1 = c'.1 := by
        rcases Nat.lt_trichotomy c.1 c'.1 with hlt | heq | hgt
        · have h1 := hr c.1
          have : c'.1 ≠ c.1 := by omega
          simp [Memory.read, this, Memory.read_below h'.2 (by omega : c.1 < c'.1 + 1)] at h1
          exact absurd h1 h.1.2
        · exact heq
        · have h1 := hr c'.1
          have : c.1 ≠ c'.1 := by omega
          simp [Memory.read, this, Memory.read_below h.2 (by omega : c'.1 < c.1 + 1)] at h1
          exact absurd h1.symm h'.1.2
      have hb : c.2 = c'.2 := by
        have h1 := hr c.1
        simpa [Memory.read, hk] using h1
      have hcs : cs = cs' := by
        refine ih h.2 (hk ▸ h'.2) (fun i => ?_)
        by_cases hi : i < c.1 + 1
        · rw [Memory.read_below h.2 hi, Memory.read_below (hk ▸ h'.2) hi]
        · have h1 := hr i
          have n1 : c.1 ≠ i := by omega
          have n2 : c'.1 ≠ i := by omega
          simpa [Memory.read, n1, n2] using h1
      rw [hcs, Prod.ext hk hb]

end Sys2Proof.Machine
end

