-- ==== Sys2Proof/Laws/Buffer.lean ====
section
/-! SUPPORT. The ring-buffer helpers: everything a push, a pop and a reset can do, that they keep INV1 to INV5, and what
they do to the contents. Callers cite these and never unfold the helpers. -/

namespace Sys2Proof.Machine

variable {cap : Nat} {b : Byte} {q q' : Buffer}

/-- Everything a push that succeeds can do. -/
theorem push_ok_iff : q.push cap b = .ok q' ↔ q.full = false ∧ q.wc < cap ∧
    q' = { q with storage := q.storage.write q.wc b, wc := (q.wc + 1) % cap, count := q.count + 1,
                  full := decide ((q.wc + 1) % cap = q.rc) } := by
  unfold Buffer.push nextCursor
  cases hf : q.full <;> simp
  by_cases hw : q.wc < cap <;> simp [hw, eq_comm]

theorem push_bufferFull_iff : q.push cap b = .bufferFull ↔ q.full = true := by
  unfold Buffer.push
  cases hf : q.full <;> simp
  by_cases hw : q.wc < cap <;> simp [hw]

theorem push_noCell_iff : q.push cap b = .noCell ↔ q.full = false ∧ cap ≤ q.wc := by
  unfold Buffer.push
  cases hf : q.full <;> simp

/-- Everything a pop that succeeds can do. -/
theorem pop_ok_iff : q.pop cap = .ok b q' ↔ q.count ≠ 0 ∧ q.rc < cap ∧ b = q.storage.read q.rc ∧
    q' = { q with rc := (q.rc + 1) % cap, count := q.count - 1, full := false } := by
  unfold Buffer.pop nextCursor
  by_cases hc : q.count = 0 <;> simp [hc]
  by_cases hr : q.rc < cap <;> simp [hr, eq_comm]

theorem pop_bufferEmpty_iff : q.pop cap = .bufferEmpty ↔ q.count = 0 := by
  unfold Buffer.pop
  by_cases hc : q.count = 0 <;> simp [hc]
  by_cases hr : q.rc < cap <;> simp [hr]

theorem pop_noCell_iff : q.pop cap = .noCell ↔ q.count ≠ 0 ∧ cap ≤ q.rc := by
  unfold Buffer.pop
  by_cases hc : q.count = 0 <;> simp [hc]

/-! ### The invariant -/

theorem reset_buffer_inv (h : 1 ≤ cap) : Buffer.Inv cap Buffer.reset := by
  refine ⟨Nat.zero_le _, ?_, h, h, Nat.zero_mod _, rfl, rfl⟩
  show false = decide (0 = cap)
  exact (decide_eq_false (by omega)).symm

theorem clear_inv (h : Buffer.Inv cap q) : Buffer.Inv cap q.clear := by
  obtain ⟨_, _, hw, _, _, hs, hin⟩ := h
  refine ⟨Nat.zero_le _, ?_, Nat.lt_of_le_of_lt (Nat.zero_le _) hw, Nat.lt_of_le_of_lt (Nat.zero_le _) hw,
    Nat.zero_mod _, hs, hin⟩
  show false = decide (0 = cap)
  exact (decide_eq_false (by omega)).symm

theorem evEn_inv (en : Bool) : Buffer.Inv cap { q with evEn := en } ↔ Buffer.Inv cap q := Iff.rfl

/-- Not full and the invariant: there is room. -/
theorem Buffer.Inv.count_lt (h : Buffer.Inv cap q) (hf : q.full = false) : q.count < cap := by
  obtain ⟨hc, hfull, _⟩ := h
  rw [hfull] at hf
  have := of_decide_eq_false hf
  omega

/-- The advanced write cursor meets the read cursor exactly when the push brings the count to C (R84 (b)). -/
theorem Buffer.Inv.meets_iff (h : Buffer.Inv cap q) (hf : q.full = false) :
    (q.wc + 1) % cap = q.rc ↔ q.count + 1 = cap := by
  have hlt := h.count_lt hf
  obtain ⟨_, _, hw, hr, hcur, _, _⟩ := h
  rw [← hcur, Nat.mod_add_mod]
  constructor
  · intro he
    have h1 : (q.rc + q.count + 1) % cap = q.rc % cap := by rw [he, Nat.mod_eq_of_lt hr]
    have h2 : (q.rc + (q.count + 1)) % cap = (q.rc + 0) % cap := by simpa [Nat.add_assoc] using h1
    have h3 := Nat.ModEq.add_left_cancel' q.rc h2
    have h4 := Nat.dvd_of_mod_eq_zero (show (q.count + 1) % cap = 0 by simpa [Nat.ModEq] using h3)
    have := Nat.le_of_dvd (by omega) h4
    omega
  · intro he
    rw [show q.rc + q.count + 1 = q.rc + cap by omega, Nat.add_mod_right, Nat.mod_eq_of_lt hr]

theorem push_inv (h : Buffer.Inv cap q) (hp : q.push cap b = .ok q') : Buffer.Inv cap q' := by
  obtain ⟨hf, hw, rfl⟩ := push_ok_iff.mp hp
  have hm := h.meets_iff hf
  have hlt := h.count_lt hf
  obtain ⟨hc, _, _, hr, hcur, hs, hin⟩ := h
  refine ⟨by show q.count + 1 ≤ cap; omega, ?_, Nat.mod_lt _ (by omega), hr, ?_, Memory.write_wf _ _ hs,
    Memory.write_within _ hin hw⟩
  · simp [hm]
  · show (q.rc + (q.count + 1)) % cap = (q.wc + 1) % cap
    rw [← hcur, Nat.mod_add_mod, Nat.add_assoc]

theorem pop_inv (h : Buffer.Inv cap q) (hp : q.pop cap = .ok b q') : Buffer.Inv cap q' := by
  obtain ⟨hc0, hr, _, rfl⟩ := pop_ok_iff.mp hp
  obtain ⟨hc, _, hw, _, hcur, hs, hin⟩ := h
  refine ⟨by show q.count - 1 ≤ cap; omega, ?_, hw, Nat.mod_lt _ (by omega), ?_, hs, hin⟩
  · show false = decide (q.count - 1 = cap)
    exact (decide_eq_false (by omega)).symm
  · show ((q.rc + 1) % cap + (q.count - 1)) % cap = q.wc
    rw [Nat.mod_add_mod, show q.rc + 1 + (q.count - 1) = q.rc + q.count by omega, hcur]

/-- Under the invariant a push succeeds or finds the buffer full: it never meets a cell that does not exist. -/
theorem push_total (h : Buffer.Inv cap q) : (∃ q', q.push cap b = .ok q') ∨ q.push cap b = .bufferFull := by
  obtain ⟨_, _, hw, _⟩ := h
  cases hf : q.full
  · exact .inl ⟨_, push_ok_iff.mpr ⟨hf, hw, rfl⟩⟩
  · exact .inr (push_bufferFull_iff.mpr hf)

/-- Under the invariant a pop succeeds or finds the buffer empty. -/
theorem pop_total (h : Buffer.Inv cap q) : (∃ b q', q.pop cap = .ok b q') ∨ q.pop cap = .bufferEmpty := by
  obtain ⟨_, _, _, hr, _⟩ := h
  by_cases hc : q.count = 0
  · exact .inr (pop_bufferEmpty_iff.mpr hc)
  · exact .inl ⟨_, _, pop_ok_iff.mpr ⟨hc, hr, rfl, rfl⟩⟩

/-! ### Contents (R25) -/

theorem contents_of_count_zero (h : q.count = 0) : q.contents cap = [] := by simp [Buffer.contents, h]

@[simp] theorem contents_length : (q.contents cap).length = q.count := by simp [Buffer.contents]

@[simp] theorem contents_clear : q.clear.contents cap = [] := contents_of_count_zero rfl

/-- Two places of the valid window are the same cell only if they are the same place. -/
theorem window_injective {rc j k : Nat} (hj : j < cap) (hk : k < cap) (h : (rc + j) % cap = (rc + k) % cap) : j = k := by
  have := Nat.ModEq.add_left_cancel' rc h
  rwa [Nat.ModEq, Nat.mod_eq_of_lt hj, Nat.mod_eq_of_lt hk] at this

/-- A push appends its byte at the end of the contents. -/
theorem push_contents (h : Buffer.Inv cap q) (hp : q.push cap b = .ok q') : q'.contents cap = q.contents cap ++ [b] := by
  obtain ⟨hf, hw, rfl⟩ := push_ok_iff.mp hp
  have hlt := h.count_lt hf
  obtain ⟨_, _, _, _, hcur, hs, _⟩ := h
  simp only [Buffer.contents, List.range_succ, List.map_append, List.map_cons, List.map_nil]
  congr 1
  · refine List.map_congr_left (fun k hk => ?_)
    rw [List.mem_range] at hk
    refine Memory.read_write_other _ _ (fun he => ?_)
    rw [← hcur] at he
    have := window_injective (by omega) hlt he
    omega
  · rw [hcur, Memory.read_write_same hs]

/-- A pop removes and returns the first element of the contents. -/
theorem pop_contents (hp : q.pop cap = .ok b q') : q.contents cap = b :: q'.contents cap := by
  obtain ⟨hc0, hr, rfl, rfl⟩ := pop_ok_iff.mp hp
  obtain ⟨n, hn⟩ := Nat.exists_eq_succ_of_ne_zero hc0
  simp only [Buffer.contents, hn, Nat.succ_eq_add_one, Nat.add_sub_cancel, List.range_succ_eq_map, List.map_cons,
    List.map_map]
  congr 1
  · rw [Nat.add_zero, Nat.mod_eq_of_lt hr]
  · refine List.map_congr_left (fun k _ => ?_)
    show q.storage.read ((q.rc + (k + 1)) % cap) = q.storage.read (((q.rc + 1) % cap + k) % cap)
    rw [Nat.mod_add_mod, show q.rc + (k + 1) = q.rc + 1 + k by omega]

/-- The cells outside the write cursor's stay at a push. -/
theorem push_read_other (hp : q.push cap b = .ok q') {j : Nat} (hj : j ≠ q.wc) : q'.storage.read j = q.storage.read j := by
  obtain ⟨_, _, rfl⟩ := push_ok_iff.mp hp
  exact Memory.read_write_other _ _ hj

theorem push_read_same (h : Buffer.Inv cap q) (hp : q.push cap b = .ok q') : q'.storage.read q.wc = b := by
  obtain ⟨_, _, rfl⟩ := push_ok_iff.mp hp
  exact Memory.read_write_same h.2.2.2.2.2.1 b

end Sys2Proof.Machine
end

