-- ==== Sys2Proof/Laws/Encoding.lean ====
section
/-! SUPPORT. Command words and their fields, and the words the rows of the opcode map admit. -/

namespace Sys2Proof

/-- The fields of a command word are those it was put together from. -/
theorem fields_commandWord (op : BitVec 4) (d : BitVec 1) (imm : Byte) :
    opField (commandWord op d imm) = op ∧ dirField (commandWord op d imm) = d ∧
    rsvField (commandWord op d imm) = 0#3 ∧ immField (commandWord op d imm) = imm := by
  simp only [opField, dirField, rsvField, immField, commandWord]
  refine ⟨?_, ?_, ?_, ?_⟩ <;> ext i hi <;> simp only [BitVec.getElem_extractLsb', BitVec.getLsbD_append] <;> grind

/-- A word with `rsv` zero is put together from its fields. -/
theorem commandWord_fields {w : Word} (h : rsvField w = 0#3) : commandWord (opField w) (dirField w) (immField w) = w := by
  have hw : commandWord (opField w) (dirField w) (immField w) = opField w ++ dirField w ++ rsvField w ++ immField w := by
    rw [h]; rfl
  rw [hw]
  simp only [opField, dirField, rsvField, immField]
  ext i hi
  simp only [BitVec.getElem_append, BitVec.getElem_extractLsb']
  grind

/-- What the decoder makes of a word put together from fields. -/
theorem decodeWord_commandWord (op : BitVec 4) (d : BitVec 1) (imm : Byte) :
    decodeWord (commandWord op d imm) = decodeFields op d imm := by
  obtain ⟨h1, h2, h3, h4⟩ := fields_commandWord op d imm
  simp [decodeWord, h1, h2, h3, h4]

@[simp] theorem directionOf_bit (d : Direction) : directionOf d.bit = d := by cases d <;> rfl

@[simp] theorem bit_directionOf (d : BitVec 1) : (directionOf d).bit = d := by revert d; decide

/-- The bits of a word put together from fields under a mask put together the same way. -/
theorem commandWord_and (op mop : BitVec 4) (d md : BitVec 1) (rsv mrsv : BitVec 3) (imm mimm : Byte) :
    (op ++ d ++ rsv ++ imm : Word) &&& (mop ++ md ++ mrsv ++ mimm : Word)
      = (op &&& mop) ++ (d &&& md) ++ (rsv &&& mrsv) ++ (imm &&& mimm) := by
  simp only [BitVec.and_append]

end Sys2Proof
end

