-- ==== Sys2Proof/Laws/State.lean ====
section
/-! SUPPORT. What each update of the state leaves in each field, one lemma a field, so that no proof unfolds an update. -/

namespace Sys2Proof.Machine

@[simp] theorem respond_params (st : Status) (v : BitVec 10) (s : State) : (respond st v s).params = s.params := rfl
@[simp] theorem respond_prog (st : Status) (v : BitVec 10) (s : State) : (respond st v s).prog = s.prog := rfl
@[simp] theorem respond_arrivals (st : Status) (v : BitVec 10) (s : State) : (respond st v s).arrivals = s.arrivals := rfl
@[simp] theorem respond_turns (st : Status) (v : BitVec 10) (s : State) : (respond st v s).turns = s.turns := rfl
@[simp] theorem respond_round (st : Status) (v : BitVec 10) (s : State) : (respond st v s).round = s.round := rfl
@[simp] theorem respond_rx (st : Status) (v : BitVec 10) (s : State) : (respond st v s).rx = s.rx := rfl
@[simp] theorem respond_tx (st : Status) (v : BitVec 10) (s : State) : (respond st v s).tx = s.tx := rfl
@[simp] theorem respond_init (st : Status) (v : BitVec 10) (s : State) : (respond st v s).init = s.init := rfl
@[simp] theorem respond_gie (st : Status) (v : BitVec 10) (s : State) : (respond st v s).gie = s.gie := rfl
@[simp] theorem respond_fault (st : Status) (v : BitVec 10) (s : State) : (respond st v s).fault = s.fault := rfl
@[simp] theorem respond_rxen (st : Status) (v : BitVec 10) (s : State) : (respond st v s).rxen = s.rxen := rfl
@[simp] theorem respond_txen (st : Status) (v : BitVec 10) (s : State) : (respond st v s).txen = s.txen := rfl
@[simp] theorem respond_rxIntEn (st : Status) (v : BitVec 10) (s : State) : (respond st v s).rxIntEn = s.rxIntEn := rfl
@[simp] theorem respond_txIntEn (st : Status) (v : BitVec 10) (s : State) : (respond st v s).txIntEn = s.txIntEn := rfl
@[simp] theorem respond_rxc (st : Status) (v : BitVec 10) (s : State) : (respond st v s).rxc = s.rxc := rfl
@[simp] theorem respond_dre (st : Status) (v : BitVec 10) (s : State) : (respond st v s).dre = s.dre := rfl
@[simp] theorem respond_rxData (st : Status) (v : BitVec 10) (s : State) : (respond st v s).rxData = s.rxData := rfl
@[simp] theorem respond_txData (st : Status) (v : BitVec 10) (s : State) : (respond st v s).txData = s.txData := rfl
@[simp] theorem respond_pc (st : Status) (v : BitVec 10) (s : State) : (respond st v s).pc = s.pc := rfl
@[simp] theorem respond_ustep (st : Status) (v : BitVec 10) (s : State) : (respond st v s).ustep = s.ustep := rfl
@[simp] theorem respond_wlIdx (st : Status) (v : BitVec 10) (s : State) : (respond st v s).wlIdx = s.wlIdx := rfl
@[simp] theorem respond_wlEnq (st : Status) (v : BitVec 10) (s : State) : (respond st v s).wlEnq = s.wlEnq := rfl
@[simp] theorem respond_rlEmitted (st : Status) (v : BitVec 10) (s : State) : (respond st v s).rlEmitted = s.rlEmitted := rfl
@[simp] theorem respond_resp (st : Status) (v : BitVec 10) (s : State) : (respond st v s).resp = s.resp ++ [respWord st v] := rfl
@[simp] theorem respond_evt (st : Status) (v : BitVec 10) (s : State) : (respond st v s).evt = s.evt := rfl
@[simp] theorem respond_wireOut (st : Status) (v : BitVec 10) (s : State) : (respond st v s).wireOut = s.wireOut := rfl

@[simp] theorem complete_params (n : Nat) (s : State) : (complete n s).params = s.params := rfl
@[simp] theorem complete_prog (n : Nat) (s : State) : (complete n s).prog = s.prog := rfl
@[simp] theorem complete_arrivals (n : Nat) (s : State) : (complete n s).arrivals = s.arrivals := rfl
@[simp] theorem complete_turns (n : Nat) (s : State) : (complete n s).turns = s.turns := rfl
@[simp] theorem complete_round (n : Nat) (s : State) : (complete n s).round = s.round := rfl
@[simp] theorem complete_rx (n : Nat) (s : State) : (complete n s).rx = s.rx := rfl
@[simp] theorem complete_tx (n : Nat) (s : State) : (complete n s).tx = s.tx := rfl
@[simp] theorem complete_init (n : Nat) (s : State) : (complete n s).init = s.init := rfl
@[simp] theorem complete_gie (n : Nat) (s : State) : (complete n s).gie = s.gie := rfl
@[simp] theorem complete_fault (n : Nat) (s : State) : (complete n s).fault = s.fault := rfl
@[simp] theorem complete_rxen (n : Nat) (s : State) : (complete n s).rxen = s.rxen := rfl
@[simp] theorem complete_txen (n : Nat) (s : State) : (complete n s).txen = s.txen := rfl
@[simp] theorem complete_rxIntEn (n : Nat) (s : State) : (complete n s).rxIntEn = s.rxIntEn := rfl
@[simp] theorem complete_txIntEn (n : Nat) (s : State) : (complete n s).txIntEn = s.txIntEn := rfl
@[simp] theorem complete_rxc (n : Nat) (s : State) : (complete n s).rxc = s.rxc := rfl
@[simp] theorem complete_dre (n : Nat) (s : State) : (complete n s).dre = s.dre := rfl
@[simp] theorem complete_rxData (n : Nat) (s : State) : (complete n s).rxData = s.rxData := rfl
@[simp] theorem complete_txData (n : Nat) (s : State) : (complete n s).txData = s.txData := rfl
@[simp] theorem complete_pc (n : Nat) (s : State) : (complete n s).pc = s.pc + n := rfl
@[simp] theorem complete_ustep (n : Nat) (s : State) : (complete n s).ustep = .idle := rfl
@[simp] theorem complete_wlIdx (n : Nat) (s : State) : (complete n s).wlIdx = s.wlIdx := rfl
@[simp] theorem complete_wlEnq (n : Nat) (s : State) : (complete n s).wlEnq = s.wlEnq := rfl
@[simp] theorem complete_rlEmitted (n : Nat) (s : State) : (complete n s).rlEmitted = s.rlEmitted := rfl
@[simp] theorem complete_resp (n : Nat) (s : State) : (complete n s).resp = s.resp := rfl
@[simp] theorem complete_evt (n : Nat) (s : State) : (complete n s).evt = s.evt := rfl
@[simp] theorem complete_wireOut (n : Nat) (s : State) : (complete n s).wireOut = s.wireOut := rfl

@[simp] theorem finish_params (st : Status) (v : BitVec 10) (n : Nat) (s : State) : (finish st v n s).params = s.params := rfl
@[simp] theorem finish_prog (st : Status) (v : BitVec 10) (n : Nat) (s : State) : (finish st v n s).prog = s.prog := rfl
@[simp] theorem finish_arrivals (st : Status) (v : BitVec 10) (n : Nat) (s : State) : (finish st v n s).arrivals = s.arrivals := rfl
@[simp] theorem finish_turns (st : Status) (v : BitVec 10) (n : Nat) (s : State) : (finish st v n s).turns = s.turns := rfl
@[simp] theorem finish_round (st : Status) (v : BitVec 10) (n : Nat) (s : State) : (finish st v n s).round = s.round := rfl
@[simp] theorem finish_rx (st : Status) (v : BitVec 10) (n : Nat) (s : State) : (finish st v n s).rx = s.rx := rfl
@[simp] theorem finish_tx (st : Status) (v : BitVec 10) (n : Nat) (s : State) : (finish st v n s).tx = s.tx := rfl
@[simp] theorem finish_init (st : Status) (v : BitVec 10) (n : Nat) (s : State) : (finish st v n s).init = s.init := rfl
@[simp] theorem finish_gie (st : Status) (v : BitVec 10) (n : Nat) (s : State) : (finish st v n s).gie = s.gie := rfl
@[simp] theorem finish_fault (st : Status) (v : BitVec 10) (n : Nat) (s : State) : (finish st v n s).fault = s.fault := rfl
@[simp] theorem finish_rxen (st : Status) (v : BitVec 10) (n : Nat) (s : State) : (finish st v n s).rxen = s.rxen := rfl
@[simp] theorem finish_txen (st : Status) (v : BitVec 10) (n : Nat) (s : State) : (finish st v n s).txen = s.txen := rfl
@[simp] theorem finish_rxIntEn (st : Status) (v : BitVec 10) (n : Nat) (s : State) : (finish st v n s).rxIntEn = s.rxIntEn := rfl
@[simp] theorem finish_txIntEn (st : Status) (v : BitVec 10) (n : Nat) (s : State) : (finish st v n s).txIntEn = s.txIntEn := rfl
@[simp] theorem finish_rxc (st : Status) (v : BitVec 10) (n : Nat) (s : State) : (finish st v n s).rxc = s.rxc := rfl
@[simp] theorem finish_dre (st : Status) (v : BitVec 10) (n : Nat) (s : State) : (finish st v n s).dre = s.dre := rfl
@[simp] theorem finish_rxData (st : Status) (v : BitVec 10) (n : Nat) (s : State) : (finish st v n s).rxData = s.rxData := rfl
@[simp] theorem finish_txData (st : Status) (v : BitVec 10) (n : Nat) (s : State) : (finish st v n s).txData = s.txData := rfl
@[simp] theorem finish_pc (st : Status) (v : BitVec 10) (n : Nat) (s : State) : (finish st v n s).pc = s.pc + n := rfl
@[simp] theorem finish_ustep (st : Status) (v : BitVec 10) (n : Nat) (s : State) : (finish st v n s).ustep = .idle := rfl
@[simp] theorem finish_wlIdx (st : Status) (v : BitVec 10) (n : Nat) (s : State) : (finish st v n s).wlIdx = s.wlIdx := rfl
@[simp] theorem finish_wlEnq (st : Status) (v : BitVec 10) (n : Nat) (s : State) : (finish st v n s).wlEnq = s.wlEnq := rfl
@[simp] theorem finish_rlEmitted (st : Status) (v : BitVec 10) (n : Nat) (s : State) : (finish st v n s).rlEmitted = s.rlEmitted := rfl
@[simp] theorem finish_resp (st : Status) (v : BitVec 10) (n : Nat) (s : State) : (finish st v n s).resp = s.resp ++ [respWord st v] := rfl
@[simp] theorem finish_evt (st : Status) (v : BitVec 10) (n : Nat) (s : State) : (finish st v n s).evt = s.evt := rfl
@[simp] theorem finish_wireOut (st : Status) (v : BitVec 10) (n : Nat) (s : State) : (finish st v n s).wireOut = s.wireOut := rfl

@[simp] theorem raiseFault_params (c : FaultCode) (s : State) : (raiseFault c s).params = s.params := rfl
@[simp] theorem raiseFault_prog (c : FaultCode) (s : State) : (raiseFault c s).prog = s.prog := rfl
@[simp] theorem raiseFault_arrivals (c : FaultCode) (s : State) : (raiseFault c s).arrivals = s.arrivals := rfl
@[simp] theorem raiseFault_turns (c : FaultCode) (s : State) : (raiseFault c s).turns = s.turns := rfl
@[simp] theorem raiseFault_round (c : FaultCode) (s : State) : (raiseFault c s).round = s.round := rfl
@[simp] theorem raiseFault_rx (c : FaultCode) (s : State) : (raiseFault c s).rx = s.rx := rfl
@[simp] theorem raiseFault_tx (c : FaultCode) (s : State) : (raiseFault c s).tx = s.tx := rfl
@[simp] theorem raiseFault_init (c : FaultCode) (s : State) : (raiseFault c s).init = s.init := rfl
@[simp] theorem raiseFault_gie (c : FaultCode) (s : State) : (raiseFault c s).gie = s.gie := rfl
@[simp] theorem raiseFault_fault (c : FaultCode) (s : State) : (raiseFault c s).fault = if s.fault = none then some c else s.fault := rfl
@[simp] theorem raiseFault_rxen (c : FaultCode) (s : State) : (raiseFault c s).rxen = s.rxen := rfl
@[simp] theorem raiseFault_txen (c : FaultCode) (s : State) : (raiseFault c s).txen = s.txen := rfl
@[simp] theorem raiseFault_rxIntEn (c : FaultCode) (s : State) : (raiseFault c s).rxIntEn = s.rxIntEn := rfl
@[simp] theorem raiseFault_txIntEn (c : FaultCode) (s : State) : (raiseFault c s).txIntEn = s.txIntEn := rfl
@[simp] theorem raiseFault_rxc (c : FaultCode) (s : State) : (raiseFault c s).rxc = s.rxc := rfl
@[simp] theorem raiseFault_dre (c : FaultCode) (s : State) : (raiseFault c s).dre = s.dre := rfl
@[simp] theorem raiseFault_rxData (c : FaultCode) (s : State) : (raiseFault c s).rxData = s.rxData := rfl
@[simp] theorem raiseFault_txData (c : FaultCode) (s : State) : (raiseFault c s).txData = s.txData := rfl
@[simp] theorem raiseFault_pc (c : FaultCode) (s : State) : (raiseFault c s).pc = s.pc := rfl
@[simp] theorem raiseFault_ustep (c : FaultCode) (s : State) : (raiseFault c s).ustep = s.ustep := rfl
@[simp] theorem raiseFault_wlIdx (c : FaultCode) (s : State) : (raiseFault c s).wlIdx = s.wlIdx := rfl
@[simp] theorem raiseFault_wlEnq (c : FaultCode) (s : State) : (raiseFault c s).wlEnq = s.wlEnq := rfl
@[simp] theorem raiseFault_rlEmitted (c : FaultCode) (s : State) : (raiseFault c s).rlEmitted = s.rlEmitted := rfl
@[simp] theorem raiseFault_resp (c : FaultCode) (s : State) : (raiseFault c s).resp = s.resp := rfl
@[simp] theorem raiseFault_evt (c : FaultCode) (s : State) : (raiseFault c s).evt = s.evt := rfl
@[simp] theorem raiseFault_wireOut (c : FaultCode) (s : State) : (raiseFault c s).wireOut = s.wireOut := rfl

@[simp] theorem emitEvt_params (d : Direction) (s : State) : (emitEvt d s).params = s.params := rfl
@[simp] theorem emitEvt_prog (d : Direction) (s : State) : (emitEvt d s).prog = s.prog := rfl
@[simp] theorem emitEvt_arrivals (d : Direction) (s : State) : (emitEvt d s).arrivals = s.arrivals := rfl
@[simp] theorem emitEvt_turns (d : Direction) (s : State) : (emitEvt d s).turns = s.turns := rfl
@[simp] theorem emitEvt_round (d : Direction) (s : State) : (emitEvt d s).round = s.round := rfl
@[simp] theorem emitEvt_rx (d : Direction) (s : State) : (emitEvt d s).rx = s.rx := rfl
@[simp] theorem emitEvt_tx (d : Direction) (s : State) : (emitEvt d s).tx = s.tx := rfl
@[simp] theorem emitEvt_init (d : Direction) (s : State) : (emitEvt d s).init = s.init := rfl
@[simp] theorem emitEvt_gie (d : Direction) (s : State) : (emitEvt d s).gie = s.gie := rfl
@[simp] theorem emitEvt_fault (d : Direction) (s : State) : (emitEvt d s).fault = s.fault := rfl
@[simp] theorem emitEvt_rxen (d : Direction) (s : State) : (emitEvt d s).rxen = s.rxen := rfl
@[simp] theorem emitEvt_txen (d : Direction) (s : State) : (emitEvt d s).txen = s.txen := rfl
@[simp] theorem emitEvt_rxIntEn (d : Direction) (s : State) : (emitEvt d s).rxIntEn = s.rxIntEn := rfl
@[simp] theorem emitEvt_txIntEn (d : Direction) (s : State) : (emitEvt d s).txIntEn = s.txIntEn := rfl
@[simp] theorem emitEvt_rxc (d : Direction) (s : State) : (emitEvt d s).rxc = s.rxc := rfl
@[simp] theorem emitEvt_dre (d : Direction) (s : State) : (emitEvt d s).dre = s.dre := rfl
@[simp] theorem emitEvt_rxData (d : Direction) (s : State) : (emitEvt d s).rxData = s.rxData := rfl
@[simp] theorem emitEvt_txData (d : Direction) (s : State) : (emitEvt d s).txData = s.txData := rfl
@[simp] theorem emitEvt_pc (d : Direction) (s : State) : (emitEvt d s).pc = s.pc := rfl
@[simp] theorem emitEvt_ustep (d : Direction) (s : State) : (emitEvt d s).ustep = s.ustep := rfl
@[simp] theorem emitEvt_wlIdx (d : Direction) (s : State) : (emitEvt d s).wlIdx = s.wlIdx := rfl
@[simp] theorem emitEvt_wlEnq (d : Direction) (s : State) : (emitEvt d s).wlEnq = s.wlEnq := rfl
@[simp] theorem emitEvt_rlEmitted (d : Direction) (s : State) : (emitEvt d s).rlEmitted = s.rlEmitted := rfl
@[simp] theorem emitEvt_resp (d : Direction) (s : State) : (emitEvt d s).resp = s.resp := rfl
@[simp] theorem emitEvt_evt (d : Direction) (s : State) : (emitEvt d s).evt = s.evt ++ [d] := rfl
@[simp] theorem emitEvt_wireOut (d : Direction) (s : State) : (emitEvt d s).wireOut = s.wireOut := rfl

@[simp] theorem enableLine_params (tx rx : Bool) (s : State) : (enableLine tx rx s).params = s.params := rfl
@[simp] theorem enableLine_prog (tx rx : Bool) (s : State) : (enableLine tx rx s).prog = s.prog := rfl
@[simp] theorem enableLine_arrivals (tx rx : Bool) (s : State) : (enableLine tx rx s).arrivals = s.arrivals := rfl
@[simp] theorem enableLine_turns (tx rx : Bool) (s : State) : (enableLine tx rx s).turns = s.turns := rfl
@[simp] theorem enableLine_round (tx rx : Bool) (s : State) : (enableLine tx rx s).round = s.round := rfl
@[simp] theorem enableLine_rx (tx rx : Bool) (s : State) : (enableLine tx rx s).rx = s.rx := rfl
@[simp] theorem enableLine_tx (tx rx : Bool) (s : State) : (enableLine tx rx s).tx = s.tx := rfl
@[simp] theorem enableLine_init (tx rx : Bool) (s : State) : (enableLine tx rx s).init = s.init := rfl
@[simp] theorem enableLine_gie (tx rx : Bool) (s : State) : (enableLine tx rx s).gie = s.gie := rfl
@[simp] theorem enableLine_fault (tx rx : Bool) (s : State) : (enableLine tx rx s).fault = s.fault := rfl
@[simp] theorem enableLine_rxen (tx rx : Bool) (s : State) : (enableLine tx rx s).rxen = rx := rfl
@[simp] theorem enableLine_txen (tx rx : Bool) (s : State) : (enableLine tx rx s).txen = tx := rfl
@[simp] theorem enableLine_rxIntEn (tx rx : Bool) (s : State) : (enableLine tx rx s).rxIntEn = s.rxIntEn := rfl
@[simp] theorem enableLine_txIntEn (tx rx : Bool) (s : State) : (enableLine tx rx s).txIntEn = s.txIntEn := rfl
@[simp] theorem enableLine_rxc (tx rx : Bool) (s : State) : (enableLine tx rx s).rxc = s.rxc := rfl
@[simp] theorem enableLine_dre (tx rx : Bool) (s : State) : (enableLine tx rx s).dre = s.dre := rfl
@[simp] theorem enableLine_rxData (tx rx : Bool) (s : State) : (enableLine tx rx s).rxData = s.rxData := rfl
@[simp] theorem enableLine_txData (tx rx : Bool) (s : State) : (enableLine tx rx s).txData = s.txData := rfl
@[simp] theorem enableLine_pc (tx rx : Bool) (s : State) : (enableLine tx rx s).pc = s.pc := rfl
@[simp] theorem enableLine_ustep (tx rx : Bool) (s : State) : (enableLine tx rx s).ustep = s.ustep := rfl
@[simp] theorem enableLine_wlIdx (tx rx : Bool) (s : State) : (enableLine tx rx s).wlIdx = s.wlIdx := rfl
@[simp] theorem enableLine_wlEnq (tx rx : Bool) (s : State) : (enableLine tx rx s).wlEnq = s.wlEnq := rfl
@[simp] theorem enableLine_rlEmitted (tx rx : Bool) (s : State) : (enableLine tx rx s).rlEmitted = s.rlEmitted := rfl
@[simp] theorem enableLine_resp (tx rx : Bool) (s : State) : (enableLine tx rx s).resp = s.resp := rfl
@[simp] theorem enableLine_evt (tx rx : Bool) (s : State) : (enableLine tx rx s).evt = s.evt := rfl
@[simp] theorem enableLine_wireOut (tx rx : Bool) (s : State) : (enableLine tx rx s).wireOut = s.wireOut := rfl

@[simp] theorem setBuffer_receive_params (q : Buffer) (s : State) : (setBuffer .receive q s).params = s.params := rfl
@[simp] theorem setBuffer_receive_prog (q : Buffer) (s : State) : (setBuffer .receive q s).prog = s.prog := rfl
@[simp] theorem setBuffer_receive_arrivals (q : Buffer) (s : State) : (setBuffer .receive q s).arrivals = s.arrivals := rfl
@[simp] theorem setBuffer_receive_turns (q : Buffer) (s : State) : (setBuffer .receive q s).turns = s.turns := rfl
@[simp] theorem setBuffer_receive_round (q : Buffer) (s : State) : (setBuffer .receive q s).round = s.round := rfl
@[simp] theorem setBuffer_receive_rx (q : Buffer) (s : State) : (setBuffer .receive q s).rx = q := rfl
@[simp] theorem setBuffer_receive_tx (q : Buffer) (s : State) : (setBuffer .receive q s).tx = s.tx := rfl
@[simp] theorem setBuffer_receive_init (q : Buffer) (s : State) : (setBuffer .receive q s).init = s.init := rfl
@[simp] theorem setBuffer_receive_gie (q : Buffer) (s : State) : (setBuffer .receive q s).gie = s.gie := rfl
@[simp] theorem setBuffer_receive_fault (q : Buffer) (s : State) : (setBuffer .receive q s).fault = s.fault := rfl
@[simp] theorem setBuffer_receive_rxen (q : Buffer) (s : State) : (setBuffer .receive q s).rxen = s.rxen := rfl
@[simp] theorem setBuffer_receive_txen (q : Buffer) (s : State) : (setBuffer .receive q s).txen = s.txen := rfl
@[simp] theorem setBuffer_receive_rxIntEn (q : Buffer) (s : State) : (setBuffer .receive q s).rxIntEn = s.rxIntEn := rfl
@[simp] theorem setBuffer_receive_txIntEn (q : Buffer) (s : State) : (setBuffer .receive q s).txIntEn = s.txIntEn := rfl
@[simp] theorem setBuffer_receive_rxc (q : Buffer) (s : State) : (setBuffer .receive q s).rxc = s.rxc := rfl
@[simp] theorem setBuffer_receive_dre (q : Buffer) (s : State) : (setBuffer .receive q s).dre = s.dre := rfl
@[simp] theorem setBuffer_receive_rxData (q : Buffer) (s : State) : (setBuffer .receive q s).rxData = s.rxData := rfl
@[simp] theorem setBuffer_receive_txData (q : Buffer) (s : State) : (setBuffer .receive q s).txData = s.txData := rfl
@[simp] theorem setBuffer_receive_pc (q : Buffer) (s : State) : (setBuffer .receive q s).pc = s.pc := rfl
@[simp] theorem setBuffer_receive_ustep (q : Buffer) (s : State) : (setBuffer .receive q s).ustep = s.ustep := rfl
@[simp] theorem setBuffer_receive_wlIdx (q : Buffer) (s : State) : (setBuffer .receive q s).wlIdx = s.wlIdx := rfl
@[simp] theorem setBuffer_receive_wlEnq (q : Buffer) (s : State) : (setBuffer .receive q s).wlEnq = s.wlEnq := rfl
@[simp] theorem setBuffer_receive_rlEmitted (q : Buffer) (s : State) : (setBuffer .receive q s).rlEmitted = s.rlEmitted := rfl
@[simp] theorem setBuffer_receive_resp (q : Buffer) (s : State) : (setBuffer .receive q s).resp = s.resp := rfl
@[simp] theorem setBuffer_receive_evt (q : Buffer) (s : State) : (setBuffer .receive q s).evt = s.evt := rfl
@[simp] theorem setBuffer_receive_wireOut (q : Buffer) (s : State) : (setBuffer .receive q s).wireOut = s.wireOut := rfl

@[simp] theorem setBuffer_transmit_params (q : Buffer) (s : State) : (setBuffer .transmit q s).params = s.params := rfl
@[simp] theorem setBuffer_transmit_prog (q : Buffer) (s : State) : (setBuffer .transmit q s).prog = s.prog := rfl
@[simp] theorem setBuffer_transmit_arrivals (q : Buffer) (s : State) : (setBuffer .transmit q s).arrivals = s.arrivals := rfl
@[simp] theorem setBuffer_transmit_turns (q : Buffer) (s : State) : (setBuffer .transmit q s).turns = s.turns := rfl
@[simp] theorem setBuffer_transmit_round (q : Buffer) (s : State) : (setBuffer .transmit q s).round = s.round := rfl
@[simp] theorem setBuffer_transmit_rx (q : Buffer) (s : State) : (setBuffer .transmit q s).rx = s.rx := rfl
@[simp] theorem setBuffer_transmit_tx (q : Buffer) (s : State) : (setBuffer .transmit q s).tx = q := rfl
@[simp] theorem setBuffer_transmit_init (q : Buffer) (s : State) : (setBuffer .transmit q s).init = s.init := rfl
@[simp] theorem setBuffer_transmit_gie (q : Buffer) (s : State) : (setBuffer .transmit q s).gie = s.gie := rfl
@[simp] theorem setBuffer_transmit_fault (q : Buffer) (s : State) : (setBuffer .transmit q s).fault = s.fault := rfl
@[simp] theorem setBuffer_transmit_rxen (q : Buffer) (s : State) : (setBuffer .transmit q s).rxen = s.rxen := rfl
@[simp] theorem setBuffer_transmit_txen (q : Buffer) (s : State) : (setBuffer .transmit q s).txen = s.txen := rfl
@[simp] theorem setBuffer_transmit_rxIntEn (q : Buffer) (s : State) : (setBuffer .transmit q s).rxIntEn = s.rxIntEn := rfl
@[simp] theorem setBuffer_transmit_txIntEn (q : Buffer) (s : State) : (setBuffer .transmit q s).txIntEn = s.txIntEn := rfl
@[simp] theorem setBuffer_transmit_rxc (q : Buffer) (s : State) : (setBuffer .transmit q s).rxc = s.rxc := rfl
@[simp] theorem setBuffer_transmit_dre (q : Buffer) (s : State) : (setBuffer .transmit q s).dre = s.dre := rfl
@[simp] theorem setBuffer_transmit_rxData (q : Buffer) (s : State) : (setBuffer .transmit q s).rxData = s.rxData := rfl
@[simp] theorem setBuffer_transmit_txData (q : Buffer) (s : State) : (setBuffer .transmit q s).txData = s.txData := rfl
@[simp] theorem setBuffer_transmit_pc (q : Buffer) (s : State) : (setBuffer .transmit q s).pc = s.pc := rfl
@[simp] theorem setBuffer_transmit_ustep (q : Buffer) (s : State) : (setBuffer .transmit q s).ustep = s.ustep := rfl
@[simp] theorem setBuffer_transmit_wlIdx (q : Buffer) (s : State) : (setBuffer .transmit q s).wlIdx = s.wlIdx := rfl
@[simp] theorem setBuffer_transmit_wlEnq (q : Buffer) (s : State) : (setBuffer .transmit q s).wlEnq = s.wlEnq := rfl
@[simp] theorem setBuffer_transmit_rlEmitted (q : Buffer) (s : State) : (setBuffer .transmit q s).rlEmitted = s.rlEmitted := rfl
@[simp] theorem setBuffer_transmit_resp (q : Buffer) (s : State) : (setBuffer .transmit q s).resp = s.resp := rfl
@[simp] theorem setBuffer_transmit_evt (q : Buffer) (s : State) : (setBuffer .transmit q s).evt = s.evt := rfl
@[simp] theorem setBuffer_transmit_wireOut (q : Buffer) (s : State) : (setBuffer .transmit q s).wireOut = s.wireOut := rfl

@[simp] theorem programBaud_eq (s : State) : programBaud s = s := rfl
@[simp] theorem resolve_receive (s : State) : resolve .receive s = s.rx := rfl
@[simp] theorem resolve_transmit (s : State) : resolve .transmit s = s.tx := rfl
@[simp] theorem hardwareRead_fst (s : State) : (hardwareRead s).1 = s.rxData := rfl
@[simp] theorem hardwareRead_snd (s : State) : (hardwareRead s).2 = { s with rxc := false } := rfl

@[simp] theorem resolve_setBuffer (d : Direction) (q : Buffer) (s : State) : resolve d (setBuffer d q s) = q := by
  cases d <;> rfl

theorem resolve_setBuffer_other {d d' : Direction} (h : d' ≠ d) (q : Buffer) (s : State) :
    resolve d' (setBuffer d q s) = resolve d' s := by
  cases d <;> cases d' <;> first | rfl | exact absurd rfl h

/-- Writing a buffer back touches the two buffers only. -/
theorem setBuffer_eq (d : Direction) (q : Buffer) (s : State) :
    setBuffer d q s = { s with rx := (setBuffer d q s).rx, tx := (setBuffer d q s).tx } := by
  cases d <;> rfl

@[simp] theorem setBuffer_params (d : Direction) (q : Buffer) (s : State) : (setBuffer d q s).params = s.params := by
  cases d <;> rfl
@[simp] theorem setBuffer_prog (d : Direction) (q : Buffer) (s : State) : (setBuffer d q s).prog = s.prog := by
  cases d <;> rfl
@[simp] theorem setBuffer_arrivals (d : Direction) (q : Buffer) (s : State) : (setBuffer d q s).arrivals = s.arrivals := by
  cases d <;> rfl
@[simp] theorem setBuffer_turns (d : Direction) (q : Buffer) (s : State) : (setBuffer d q s).turns = s.turns := by
  cases d <;> rfl
@[simp] theorem setBuffer_round (d : Direction) (q : Buffer) (s : State) : (setBuffer d q s).round = s.round := by
  cases d <;> rfl
@[simp] theorem setBuffer_init (d : Direction) (q : Buffer) (s : State) : (setBuffer d q s).init = s.init := by
  cases d <;> rfl
@[simp] theorem setBuffer_gie (d : Direction) (q : Buffer) (s : State) : (setBuffer d q s).gie = s.gie := by
  cases d <;> rfl
@[simp] theorem setBuffer_fault (d : Direction) (q : Buffer) (s : State) : (setBuffer d q s).fault = s.fault := by
  cases d <;> rfl
@[simp] theorem setBuffer_rxen (d : Direction) (q : Buffer) (s : State) : (setBuffer d q s).rxen = s.rxen := by
  cases d <;> rfl
@[simp] theorem setBuffer_txen (d : Direction) (q : Buffer) (s : State) : (setBuffer d q s).txen = s.txen := by
  cases d <;> rfl
@[simp] theorem setBuffer_rxIntEn (d : Direction) (q : Buffer) (s : State) : (setBuffer d q s).rxIntEn = s.rxIntEn := by
  cases d <;> rfl
@[simp] theorem setBuffer_txIntEn (d : Direction) (q : Buffer) (s : State) : (setBuffer d q s).txIntEn = s.txIntEn := by
  cases d <;> rfl
@[simp] theorem setBuffer_rxc (d : Direction) (q : Buffer) (s : State) : (setBuffer d q s).rxc = s.rxc := by
  cases d <;> rfl
@[simp] theorem setBuffer_dre (d : Direction) (q : Buffer) (s : State) : (setBuffer d q s).dre = s.dre := by
  cases d <;> rfl
@[simp] theorem setBuffer_rxData (d : Direction) (q : Buffer) (s : State) : (setBuffer d q s).rxData = s.rxData := by
  cases d <;> rfl
@[simp] theorem setBuffer_txData (d : Direction) (q : Buffer) (s : State) : (setBuffer d q s).txData = s.txData := by
  cases d <;> rfl
@[simp] theorem setBuffer_pc (d : Direction) (q : Buffer) (s : State) : (setBuffer d q s).pc = s.pc := by
  cases d <;> rfl
@[simp] theorem setBuffer_ustep (d : Direction) (q : Buffer) (s : State) : (setBuffer d q s).ustep = s.ustep := by
  cases d <;> rfl
@[simp] theorem setBuffer_wlIdx (d : Direction) (q : Buffer) (s : State) : (setBuffer d q s).wlIdx = s.wlIdx := by
  cases d <;> rfl
@[simp] theorem setBuffer_wlEnq (d : Direction) (q : Buffer) (s : State) : (setBuffer d q s).wlEnq = s.wlEnq := by
  cases d <;> rfl
@[simp] theorem setBuffer_rlEmitted (d : Direction) (q : Buffer) (s : State) : (setBuffer d q s).rlEmitted = s.rlEmitted := by
  cases d <;> rfl
@[simp] theorem setBuffer_resp (d : Direction) (q : Buffer) (s : State) : (setBuffer d q s).resp = s.resp := by
  cases d <;> rfl
@[simp] theorem setBuffer_evt (d : Direction) (q : Buffer) (s : State) : (setBuffer d q s).evt = s.evt := by
  cases d <;> rfl
@[simp] theorem setBuffer_wireOut (d : Direction) (q : Buffer) (s : State) : (setBuffer d q s).wireOut = s.wireOut := by
  cases d <;> rfl

@[simp] theorem resolve_respond (d : Direction) (st : Status) (v : BitVec 10) (s : State) :
    resolve d (respond st v s) = resolve d s := by cases d <;> rfl
@[simp] theorem resolve_complete (d : Direction) (n : Nat) (s : State) : resolve d (complete n s) = resolve d s := by
  cases d <;> rfl
@[simp] theorem resolve_finish (d : Direction) (st : Status) (v : BitVec 10) (n : Nat) (s : State) :
    resolve d (finish st v n s) = resolve d s := by cases d <;> rfl
@[simp] theorem resolve_raiseFault (d : Direction) (c : FaultCode) (s : State) :
    resolve d (raiseFault c s) = resolve d s := by cases d <;> rfl
@[simp] theorem clear_storage (q : Buffer) : q.clear.storage = q.storage := rfl

end Sys2Proof.Machine
end

