-- ==== Sys2Proof/Laws/Exec.lean ====
section
/-! SUPPORT. The words of responses, raising a fault, the payload of a line, and everything each branching command can do in
one micro-step, said once. -/

namespace Sys2Proof.Machine

/-! ### Responses and faults -/

/-- A byte in a response: the byte below a status and six zeros. -/
theorem respWord_byteValue (st : Status) (b : Byte) : respWord st (byteValue b) = ((st.code ++ 0#6) ++ b : Word) := by
  cases st <;> · simp only [respWord, byteValue, Status.code]; revert b; decide

/-- A count below 1024 in an `OK` response is the word's value. -/
theorem respWord_countValue {k : Nat} (h : k < 1024) : respWord .ok (countValue k) = BitVec.ofNat 16 k := by
  apply BitVec.eq_of_toNat_eq
  simp only [respWord, countValue, Status.code, BitVec.toNat_append, BitVec.toNat_ofNat]
  simp
  omega

/-- Raising a fault where none is recorded writes the register and nothing else. -/
theorem raiseFault_of_none {c : FaultCode} {s : State} (h : s.fault = none) :
    raiseFault c s = { s with fault := some c } := by simp [raiseFault, h]

/-- Raising a fault where one is recorded writes nothing. -/
theorem raiseFault_of_some {c : FaultCode} {s : State} (h : s.fault ≠ none) : raiseFault c s = s := by
  simp [raiseFault, h]

/-- Storing a buffer and finishing writes that buffer, a response, `pc` and `ustep`. -/
theorem finish_setBuffer (st : Status) (v : BitVec 10) (n : Nat) (d : Direction) (q : Buffer) (s : State) :
    finish st v n (setBuffer d q s) =
      { s with rx := (finish st v n (setBuffer d q s)).rx, tx := (finish st v n (setBuffer d q s)).tx,
               resp := s.resp ++ [respWord st v], pc := s.pc + n, ustep := .idle } := by
  cases d <;> rfl

/-! ### The payload of a line -/

theorem payloadBytes_length {n : Nat} {ws : List Word} {bs : List Byte} (h : payloadBytes n ws = some bs) :
    bs.length = n ∧ n ≤ ws.length := by
  induction n generalizing ws bs with
  | zero => simp [payloadBytes] at h; subst h; simp
  | succ n ih =>
    cases ws with
    | nil => simp [payloadBytes] at h
    | cons w ws =>
      unfold payloadBytes at h
      split at h
      · simp only [Option.map_eq_some_iff] at h
        obtain ⟨a, ha, rfl⟩ := h
        have := ih ha
        simp; omega
      · simp at h
      · simp at h

/-- A payload has as many bytes as its header says. -/
theorem linePayload_length {n : Byte} {s : State} {bs : List Byte} (h : linePayload n s = some bs) : bs.length = n.toNat :=
  (payloadBytes_length h).1

/-! ### What a micro-step can do -/

theorem execPush_next {d : Direction} {b : Byte} {s t : State} (h : execPush d b s = .next t) :
    (∃ q, (resolve d s).push s.params.capacity b = .ok q ∧ t = finish .ok 0#10 1 (setBuffer d q s)) ∨
    ((resolve d s).full = true ∧ t = finish .bufferFull 0#10 1 s) := by
  unfold execPush at h
  split at h
  · next q hq => exact .inl ⟨q, hq, (Host.Outcome.next.inj h).symm⟩
  · next hq => exact .inr ⟨push_bufferFull_iff.mp hq, (Host.Outcome.next.inj h).symm⟩
  · cases h

theorem execPop_next {d : Direction} {s t : State} (h : execPop d s = .next t) :
    (∃ b q, (resolve d s).pop s.params.capacity = .ok b q ∧ t = finish .ok (byteValue b) 1 (setBuffer d q s)) ∨
    ((resolve d s).count = 0 ∧ t = finish .bufferEmpty 0#10 1 s) := by
  unfold execPop at h
  split at h
  · next b q hq => exact .inl ⟨b, q, hq, (Host.Outcome.next.inj h).symm⟩
  · next hq => exact .inr ⟨pop_bufferEmpty_iff.mp hq, (Host.Outcome.next.inj h).symm⟩
  · cases h

theorem writeByteW1_next {b : Byte} {s t : State} (h : writeByteW1 b s = .next t) :
    (s.init = false ∧ t = raiseFault .uninit s) ∨
    (s.init = true ∧ s.txen = true ∧
      ((∃ q, s.tx.push s.params.capacity b = .ok q ∧ t = { s with tx := q, ustep := .w2 }) ∨
       (s.tx.full = true ∧ t = finish .bufferFull 0#10 1 s))) := by
  unfold writeByteW1 at h
  split at h
  · next hi => exact .inl ⟨by simpa using hi, (Host.Outcome.next.inj h).symm⟩
  · next hi =>
    split at h
    · cases h
    · next ht =>
      refine .inr ⟨by simpa using hi, by simpa using ht, ?_⟩
      split at h
      · next q hq => exact .inl ⟨q, hq, (Host.Outcome.next.inj h).symm⟩
      · next hq => exact .inr ⟨push_bufferFull_iff.mp hq, (Host.Outcome.next.inj h).symm⟩
      · cases h

theorem writeLineW1_next {seq : List Byte} {len : Nat} {s t : State} (h : writeLineW1 seq len s = .next t) :
    ∃ b, seq[s.wlIdx]? = some b ∧
      ((∃ q, s.tx.push s.params.capacity b = .ok q ∧ t = { s with tx := q, wlEnq := s.wlEnq + 1, ustep := .w2 }) ∨
       (s.tx.full = true ∧ t = writeLineNext seq.length len { s with wlIdx := s.wlIdx + 1 })) := by
  unfold writeLineW1 at h
  split at h
  · cases h
  · next b hb =>
    refine ⟨b, hb, ?_⟩
    split at h
    · next q hq => exact .inl ⟨q, hq, (Host.Outcome.next.inj h).symm⟩
    · next hq => exact .inr ⟨push_bufferFull_iff.mp hq, (Host.Outcome.next.inj h).symm⟩
    · cases h

theorem writeLineL0_next {seq : List Byte} {len : Nat} {s t : State} (h : writeLineL0 seq len s = .next t) :
    (s.init = false ∧ t = raiseFault .uninit s) ∨
    (s.init = true ∧ s.txen = true ∧
      ((seq = [] ∧ t = finish .ok 0#10 len { s with wlIdx := 0, wlEnq := 0 }) ∨
       (seq ≠ [] ∧ writeLineW1 seq len { s with wlIdx := 0, wlEnq := 0 } = .next t))) := by
  unfold writeLineL0 at h
  split at h
  · next hi => exact .inl ⟨by simpa using hi, (Host.Outcome.next.inj h).symm⟩
  · next hi =>
    split at h
    · cases h
    · next ht =>
      refine .inr ⟨by simpa using hi, by simpa using ht, ?_⟩
      simp only at h
      split at h
      · next h0 => exact .inl ⟨List.length_eq_zero_iff.mp h0, (Host.Outcome.next.inj h).symm⟩
      · next h0 => exact .inr ⟨fun e => h0 (by simp [e]), h⟩

theorem readLineL2_next {m : Byte} {s t : State} (h : readLineL2 m s = .next t) :
    (s.rx.count = 0 ∧ t = finish .ok (countValue s.rlEmitted) 1 (respond .more (byteValue s.params.readTerm) s)) ∨
    (∃ b q, s.rx.pop s.params.capacity = .ok b q ∧
      ((m.toNat < s.rlEmitted + 2 ∧ t = raiseFault .lineCap s) ∨
       (s.rlEmitted + 2 ≤ m.toNat ∧
        t = respond .more (byteValue b) { s with rx := q, rlEmitted := s.rlEmitted + 1 }))) := by
  unfold readLineL2 at h
  split at h
  · next hq => exact .inl ⟨pop_bufferEmpty_iff.mp hq, (Host.Outcome.next.inj h).symm⟩
  · next b q hq =>
    refine .inr ⟨b, q, hq, ?_⟩
    split at h
    · next hm => exact .inl ⟨hm, (Host.Outcome.next.inj h).symm⟩
    · next hm => exact .inr ⟨by omega, (Host.Outcome.next.inj h).symm⟩
  · cases h

end Sys2Proof.Machine
end

