-- ==== Sys2Proof/Laws/Handlers.lean ====
section
/-! SUPPORT. Everything a handler's body and a line step can do, said once. -/

namespace Sys2Proof.Machine

/-- Everything RXH can do: the byte is appended, with one event if a callback is registered, or the buffer was full. -/
theorem rxh_next {s t : State} (h : rxh s = .next t) :
    t = { s with rx := t.rx, rxc := false, evt := t.evt } ∧
    ((s.rx.push s.params.capacity s.rxData = .ok t.rx ∧ t.evt = s.evt ++ (if s.rx.evEn then [.receive] else [])) ∨
     (s.rx.full = true ∧ t.rx = s.rx ∧ t.evt = s.evt)) := by
  simp only [rxh, hardwareRead] at h
  split at h
  · next q hq =>
    simp only [Host.Outcome.next.injEq] at h; subst h
    by_cases he : s.rx.evEn = true
    · simp [he, hq, emitEvt]
    · simp [he, hq]
  · next hq =>
    simp only [Host.Outcome.next.injEq] at h; subst h
    exact ⟨rfl, .inr ⟨push_bufferFull_iff.mp hq, rfl, rfl⟩⟩
  · simp at h

/-- Everything TXH can do: disarm on an empty buffer, or hand a byte to the empty data register. -/
theorem txh_next {s t : State} (h : txh s = .next t) :
    (s.tx.count = 0 ∧ t = { s with txIntEn := false }) ∨
    (∃ b q, s.tx.pop s.params.capacity = .ok b q ∧ s.dre = true ∧
      t = { s with tx := q, txData := b, dre := false, txIntEn := s.txIntEn && decide (q.count ≠ 0),
                   evt := s.evt ++ (if q.count = 0 ∧ q.evEn = true then [.transmit] else []) }) := by
  simp only [txh, hardwareWrite] at h
  split at h
  · next hq =>
    simp only [Host.Outcome.next.injEq] at h; subst h
    exact .inl ⟨pop_bufferEmpty_iff.mp hq, rfl⟩
  · next b q hq =>
    right
    split at h
    · next s1 hs1 =>
      split at hs1
      · next hd =>
        simp only [Host.Outcome.next.injEq] at h hs1; subst hs1 h
        refine ⟨b, q, hq, hd, ?_⟩
        simp only [txDrained]
        by_cases hc : q.count = 0
        · by_cases he : q.evEn = true
          · simp [hc, he, emitEvt]
          · simp [hc, he]
        · simp [hc]
      · simp at hs1
    · simp at h
    · simp at h
  · simp at h

/-- Everything WIRE_RX can do. -/
theorem wireRx_next {s t : State} (h : wireRx s = .next t) :
    t = { s with arrivals := s.arrivals.tail, rxData := t.rxData, rxc := t.rxc } ∧
    (t.rxData = s.rxData ∧ t.rxc = s.rxc ∨ s.rxc = false ∧ t.rxc = true ∧ s.arrivals.head? = some t.rxData) := by
  simp only [wireRx, rxArrive] at h
  split at h
  · next ha => simp only [Host.Outcome.next.injEq] at h; subst h; simp [ha]; rw [← ha]
  · next b bs ha =>
    simp only [Host.Outcome.next.injEq] at h; subst h
    by_cases hr : s.rxc = true <;> simp [hr, ha]

/-- WIRE_TX has one thing to do. -/
theorem wireTx_next {s t : State} (h : wireTx s = .next t) :
    t = { s with wireOut := s.wireOut ++ [s.txData], dre := true } := by
  simp only [wireTx, Host.Outcome.next.injEq] at h; exact h.symm

end Sys2Proof.Machine
end

