-- ==== Sys2Proof/Laws/PerInstr.lean ====
section
/-! SUPPORT. Statements about every command as syntax, one lemma a constructor: its word is one its own row of the opcode
map admits (spec/30_encoding.md R62). -/

namespace Sys2Proof.Laws.EncodesInRow

open Sys2Proof

/-- The command's word has the bits of its row under the row's mask. -/
def Statement : Instr → Prop := fun i => (rowOf i).admits (encode i) = true

/-- A row whose pattern and mask are put together from fields admits a word whose fields agree under the mask. -/
theorem admits_of_fields {r : OpcodeRow} {op mop : BitVec 4} {d pd md : BitVec 1} {imm pimm mimm : Byte}
    (hm : r.mask = mop ++ md ++ 7#3 ++ mimm) (hp : r.pattern = op ++ pd ++ 0#3 ++ pimm) (ho : op &&& mop = op)
    (hd : d &&& md = pd) (hi : imm &&& mimm = pimm) : r.admits (commandWord op d imm) = true := by
  simp only [OpcodeRow.admits, commandWord, hm, hp, commandWord_and, ho, hd, hi, decide_eq_true_eq]
  rfl

theorem cbInit (d : Direction) : Statement (.cbInit d) := by cases d <;> rfl
theorem push (d : Direction) (b : Byte) : Statement (.push d b) :=
  admits_of_fields (mop := 15#4) (pd := 0#1) (md := 0#1) (pimm := 0#8) (mimm := 0#8) rfl rfl rfl (by simp) (by simp)
theorem pop (d : Direction) : Statement (.pop d) := by cases d <;> rfl
theorem len (d : Direction) : Statement (.len d) := by cases d <;> rfl
theorem isFull (d : Direction) : Statement (.isFull d) := by cases d <;> rfl
theorem isEmpty (d : Direction) : Statement (.isEmpty d) := by cases d <;> rfl
theorem setEvent (d : Direction) (en : Bool) : Statement (.setEvent d en) := by cases d <;> cases en <;> rfl
theorem initTransport (cfg : TransportConfig) : Statement (.initTransport cfg) := by
  obtain ⟨a, b, c, d⟩ := cfg
  cases a <;> cases b <;> cases c <;> cases d <;> rfl
theorem writeByte (b : Byte) : Statement (.writeByte b) :=
  admits_of_fields (mop := 15#4) (pd := 0#1) (md := 1#1) (pimm := 0#8) (mimm := 0#8) rfl rfl rfl rfl (by simp)
theorem writeLine (n : Byte) : Statement (.writeLine n) :=
  admits_of_fields (mop := 15#4) (pd := 0#1) (md := 1#1) (pimm := 0#8) (mimm := 0#8) rfl rfl rfl rfl (by simp)
theorem readByte : Statement .readByte := rfl
theorem readLine (m : Byte) : Statement (.readLine m) :=
  admits_of_fields (mop := 15#4) (pd := 0#1) (md := 1#1) (pimm := 0#8) (mimm := 0#8) rfl rfl rfl rfl (by simp)
theorem gieClr : Statement .gieClr := rfl
theorem gieSet : Statement .gieSet := rfl
theorem payload (b : Byte) : Statement (.payload b) :=
  admits_of_fields (mop := 15#4) (pd := 0#1) (md := 1#1) (pimm := 0#8) (mimm := 0#8) rfl rfl rfl rfl (by simp)

end Sys2Proof.Laws.EncodesInRow
end

