-- ==== Sys2Proof/Laws/Schedule.lean ====
section
/-! SUPPORT. The choice of the next agent: what a turn can be, and how far the free schedule must be drawn. -/

namespace Sys2Proof.Machine

/-- Turns and rounds enable nobody. -/
@[simp] theorem enabled_turns (a : Agent) (s : State) (ts : List Agent) (k : Nat) :
    enabled a { s with turns := ts, round := k } = enabled a s := by cases a <;> rfl

@[simp] theorem enabled_turns_only (a : Agent) (s : State) (ts : List Agent) :
    enabled a { s with turns := ts } = enabled a s := by cases a <;> rfl

@[simp] theorem dueTurns_turns (o : List Agent) (s : State) (ts : List Agent) (k : Nat) :
    dueTurns o { s with turns := ts, round := k } = dueTurns o s := by simp [dueTurns]

@[simp] theorem dueTurns_turns_only (o : List Agent) (s : State) (ts : List Agent) :
    dueTurns o { s with turns := ts } = dueTurns o s := by simp [dueTurns]

@[simp] theorem enabledAgents_turns_only (s : State) (ts : List Agent) :
    enabledAgents { s with turns := ts } = enabledAgents s := by simp [enabledAgents]

/-- The first due turn is an enabled agent's. -/
theorem enabled_of_dueTurns {o rest : List Agent} {a : Agent} {s : State} (h : dueTurns o s = a :: rest) :
    enabled a s = true := by
  have := List.head?_dropWhile_not (fun a => !enabled a s) o
  rw [show o.dropWhile (fun a => !enabled a s) = a :: rest from h] at this
  simpa using this

/-- Offers that hold an enabled agent have a due turn. -/
theorem dueTurns_ne_nil {o : List Agent} {a : Agent} {s : State} (hm : a ∈ o) (he : enabled a s = true) :
    dueTurns o s ≠ [] := by
  intro h
  have := List.dropWhile_eq_nil_iff.mp h a hm
  simp [he] at this

theorem mem_enabledAgents {a : Agent} {s : State} : a ∈ enabledAgents s ↔ enabled a s = true := by
  simp only [enabledAgents, List.mem_filter]
  exact ⟨fun h => h.2, fun h => ⟨by cases a <;> decide, h⟩⟩

/-- Every agent is the last one offered a turn in some round among any five in a row. -/
theorem roundTurns_offers (a : Agent) (k : Nat) : ∃ j, j < 5 ∧ a ∈ roundTurns (k + j) := by
  have key : ∃ j, j < 5 ∧ a ∈ (Agent.all.drop ((k + j) % 5)).take 1 := by
    have h5 : k % 5 < 5 := Nat.mod_lt _ (by decide)
    have hk : ∀ j, (k + j) % 5 = (k % 5 + j) % 5 := fun j => by omega
    simp only [hk]
    generalize k % 5 = r at h5
    have : ∀ (r : Fin 5) (a : Agent), a ∈ Agent.all → ∃ j : Fin 5, a ∈ (Agent.all.drop ((r.val + j.val) % 5)).take 1 := by
      decide
    obtain ⟨j, hj⟩ := this ⟨r, h5⟩ a (by cases a <;> decide)
    exact ⟨j.val, j.isLt, hj⟩
  obtain ⟨j, hj, hm⟩ := key
  exact ⟨j, hj, List.mem_append_right _ hm⟩

/-- A draw answers an enabled agent, and changes the turns and the round only. -/
theorem drawTurn_some {n : Nat} {s s1 : State} {a : Agent} (h : drawTurn n s = some (a, s1)) :
    enabled a s = true ∧ s1 = { s with turns := s1.turns, round := s1.round } := by
  induction n generalizing s with
  | zero => simp [drawTurn] at h
  | succ n ih =>
    unfold drawTurn at h
    split at h
    · next hd =>
      obtain ⟨rfl, rfl⟩ := by simpa using h
      exact ⟨enabled_of_dueTurns hd, rfl⟩
    · obtain ⟨he, hs⟩ := ih h
      exact ⟨by simpa using he, hs⟩

/-- As many rounds as it takes: a draw that goes far enough to offer an enabled agent a turn answers. -/
theorem drawTurn_ne_none {a : Agent} {j n : Nat} {s : State} (he : enabled a s = true)
    (hm : a ∈ roundTurns (s.round + j)) (hj : j < n) : drawTurn n s ≠ none := by
  induction j generalizing s n with
  | zero =>
    obtain ⟨m, rfl⟩ : ∃ m, n = m + 1 := ⟨n - 1, by omega⟩
    unfold drawTurn
    have := dueTurns_ne_nil hm he
    simp only [Nat.add_zero] at this
    split
    · simp
    · next h => exact absurd h this
  | succ j ih =>
    obtain ⟨m, rfl⟩ : ∃ m, n = m + 1 := ⟨n - 1, by omega⟩
    unfold drawTurn
    split
    · simp
    · refine ih (by simpa using he) ?_ (by omega)
      simpa [Nat.add_assoc, Nat.add_comm 1 j] using hm

/-- Everything a turn can be: an enabled agent, in the state as it is but for the turns and the round. -/
theorem nextTurn_some {s s1 : State} {a : Agent} (h : nextTurn s = some (a, s1)) :
    enabled a s = true ∧ s1 = { s with turns := s1.turns, round := s1.round } := by
  unfold nextTurn at h
  split at h
  · next hd =>
    obtain ⟨rfl, rfl⟩ := by simpa using h
    exact ⟨enabled_of_dueTurns hd, rfl⟩
  · split at h
    · simp at h
    · next b hb =>
      obtain ⟨rfl, rfl⟩ := by simpa using h
      exact ⟨mem_enabledAgents.mp (by simp [hb]), rfl⟩
    · obtain ⟨he, hs⟩ := drawTurn_some h
      exact ⟨by simpa using he, hs⟩

/-- Everything a step that answers a next state can be. -/
theorem step_next {s t : State} (h : step s = .next t) :
    ∃ a s1, nextTurn s = some (a, s1) ∧ enabled a s = true ∧
      s1 = { s with turns := s1.turns, round := s1.round } ∧ agentStep a s1 = .next t := by
  unfold step at h
  split at h
  · simp at h
  · next a s1 hn =>
    obtain ⟨he, hs⟩ := nextTurn_some hn
    exact ⟨a, s1, hn, he, hs, h⟩

end Sys2Proof.Machine
end

