-- ==== Sys2Proof/Machine/Assembler.lean ====
section
/-! DEFINITION. The assembler's lines (spec/30_encoding.md R70, R71): how a command is written, and the commands a line
stands for. It places nothing in the machine; a program is `assemble` of the lines' commands (log entry 16). -/

namespace Sys2Proof.Machine

/-- The tokens of a line. -/
inductive Token where
  | word (s : String)
  | num (n : Nat)            -- decimal, 0x hexadecimal, or one character in single quotes
  | text (cs : List Char)    -- "text"
  | punct (c : Char)         -- , = ( )
  deriving DecidableEq, Repr

/-- The digits of R70's decimal and `0x` numbers, each standing at its value. -/
def digitSymbols : List Char := "0123456789abcdef".toList

/-- The value of a digit of either case; none for any other character. -/
def digitOf (c : Char) : Option Nat := digitSymbols.idxOf? c.toLower

/-- The number written by digits of a base, most significant first. -/
def digitsValue (base : Nat) : List Char → Nat
  | [] => 0
  | c :: cs => (digitOf c).getD 0 * base ^ cs.length + digitsValue base cs

/-- A character of a mnemonic or of an option's name. -/
def isWordChar (c : Char) : Bool := c.isAlphanum || c = '_'

/-- The tokens of a line; `;` starts a comment. The first argument bounds the number of tokens. A quoted character is the
number of its code point: ASCII for R70's ASCII characters, a DESIGN CHOICE for any other (log entry 16). -/
def lexLine : Nat → List Char → Option (List Token)
  | 0, _ => none
  | _ + 1, [] => some []
  | k + 1, c :: cs =>
    if c = ';' then some []
    else if c = ' ' || c = '\t' then lexLine k cs
    else if c = '\'' then
      match cs with
      | x :: '\'' :: rest => (lexLine k rest).map (Token.num x.toNat :: ·)
      | _ => none
    else if c = '"' then
      match cs.dropWhile (· ≠ '"') with
      | _ :: rest => (lexLine k rest).map (Token.text (cs.takeWhile (· ≠ '"')) :: ·)
      | [] => none
    else if c = '0' && cs.head? = some 'x' then
      let ds := cs.tail.takeWhile (fun x => (digitOf x).isSome)
      if ds = [] then none else (lexLine k (cs.tail.drop ds.length)).map (Token.num (digitsValue 16 ds) :: ·)
    else if c.isDigit then
      let ds := c :: cs.takeWhile Char.isDigit
      (lexLine k (cs.drop (ds.length - 1))).map (Token.num (digitsValue 10 ds) :: ·)
    else if isWordChar c then
      let ws := c :: cs.takeWhile isWordChar
      (lexLine k (cs.drop (ws.length - 1))).map (Token.word (String.ofList ws) :: ·)
    else if c = ',' || c = '=' || c = '(' || c = ')' then (lexLine k cs).map (Token.punct c :: ·)
    else none

/-- `RX` is 0, `TX` is 1 (R70). -/
def dirToken : Token → Option Direction
  | .word w => if w = "RX" then some .receive else if w = "TX" then some .transmit else none
  | .num _ | .text _ | .punct _ => none

/-- A number below `bound` (bytes and lengths 256, a configuration 16, a bit 2). -/
def numToken (bound : Nat) : Token → Option Nat
  | .num n => if n < bound then some n else none
  | .word _ | .text _ | .punct _ => none

/-- A byte or a length. -/
def byteToken (t : Token) : Option Byte := (numToken 256 t).map (BitVec.ofNat 8)

/-- A bit. -/
def bitToken (t : Token) : Option Bool := (numToken 2 t).map (· = 1)

/-- The overrides of `CONFIGURE [tx=b] [rx=b] [rxcb=b] [txcb=b]` (R71). -/
def configOptions : TransportConfig → List Token → Option TransportConfig
  | c, [] => some c
  | c, .word name :: .punct '=' :: v :: rest =>
    match bitToken v with
    | none => none
    | some b =>
      if name = "tx" then configOptions { c with txEnable := b } rest
      else if name = "rx" then configOptions { c with rxEnable := b } rest
      else if name = "rxcb" then configOptions { c with rxCallback := b } rest
      else if name = "txcb" then configOptions { c with txCallback := b } rest
      else none
  | _, _ :: _ => none

/-- The options of a CONFIGURE, which may stand in parentheses and be separated by commas. -/
def configTokens (ts : List Token) : List Token := ts.filter (fun t => t ≠ .punct '(' && t ≠ .punct ')' && t ≠ .punct ',')

/-- The bytes of a text, one a character (R71). DESIGN CHOICE (log entry 16): a character beyond ASCII, of which the spec says
nothing, is the byte of its code point up to 255, and a text with a character above that is refused. -/
def textBytes (cs : List Char) : Option (List Byte) :=
  if cs.all (fun c => c.toNat < 256) then some (cs.map (fun c => BitVec.ofNat 8 c.toNat)) else none

/-- The commands a mnemonic with its operands stands for. -/
def asmCommand (mnemonic : String) (ops : List Token) : Option (List Instr) :=
  match mnemonic, ops with
  | "CB_INIT", [d] => (dirToken d).map (fun d => [.cbInit d])
  | "PUSH", [d, .punct ',', b] => do some [.push (← dirToken d) (← byteToken b)]
  | "POP", [d] => (dirToken d).map (fun d => [.pop d])
  | "LEN", [d] => (dirToken d).map (fun d => [.len d])
  | "IS_FULL", [d] => (dirToken d).map (fun d => [.isFull d])
  | "IS_EMPTY", [d] => (dirToken d).map (fun d => [.isEmpty d])
  | "SET_EVENT", [d, .punct ',', en] => do some [.setEvent (← dirToken d) (← bitToken en)]
  | "INITIALIZE", [] => some [initializeDefault]
  | "INITIALIZE", [.num n] => if n < 16 then some [.initTransport (configOf (BitVec.ofNat 8 n))] else none
  | "INITIALIZE", .word w :: ts =>
    if w = "CONFIGURE" then (configOptions (configure) (configTokens ts)).map (fun c => [.initTransport c]) else none
  | "WRITE_BYTE", [b] => (byteToken b).map (fun b => [.writeByte b])
  | "WRITE_LINE", [.text cs] => (textBytes cs).bind writeLineText
  | "WRITE_LINE", [n] => (byteToken n).map (fun n => [.writeLine n])
  | "READ_BYTE", [] => some [.readByte]
  | "READ_LINE", [m] => (byteToken m).map (fun m => [.readLine m])
  | "GIE_CLR", [] => some [.gieClr]
  | "GIE_SET", [] => some [.gieSet]
  | "PAYLOAD", [b] => (byteToken b).map (fun b => [.payload b])
  | _, _ => none

/-- The commands of one line; an empty or comment line has none. -/
def asmLine (line : String) : Option (List Instr) :=
  match lexLine (line.toList.length + 1) line.toList with
  | some (.word w :: ops) => asmCommand w ops
  | some [] => some []
  | some (.num _ :: _) | some (.text _ :: _) | some (.punct _ :: _) | none => none

end Sys2Proof.Machine
end

