-- ==== Sys2Proof/Tests/Slice0.lean ====
section
/-! SUPPORT. Tests with expected values from spec/95_test_vectors.md (and the tables of spec/30_encoding.md), and the
witnesses: for each obligation with hypotheses, a concrete state and operands that meet them. -/

namespace Sys2Proof.Machine.Tests

open Sys2Proof Sys2Proof.Machine

/-! ### Helpers -/

/-- Parameters with the default terminators. -/
def params (cap : Nat) : Params := { capacity := cap, lineTerm := [0x0A#8, 0x0D#8], readTerm := 0x00#8 }

/-- A buffer with the cells and the tuple `(wc, rc, count, full)` of the vectors. -/
def buf (cells : Memory) (wc rc count : Nat) (full : Bool) (evEn : Bool := false) : Buffer :=
  { storage := cells, wc := wc, rc := rc, count := count, full := full, evEn := evEn }

/-- Reset with a capacity and a stream. -/
def fresh (cap : Nat) (prog : List Word) : State := State.launch (params cap) prog [] []

/-- The start state of the transport vectors (95, 2.3): initialized, both line enables, global interrupts off. -/
def ready (cap : Nat) (prog : List Word) : State :=
  { fresh cap prog with init := true, txen := true, rxen := true, rxIntEn := true }

/-- The state an answer gives, if it gives one. -/
def after (o : Outcome) : Option State :=
  match o with
  | .next s => some s
  | .fault _ => none
  | .refused _ => none

/-- The reason of a refusal. -/
def refusal (o : Outcome) : Option Refusal :=
  match o with
  | .next _ => none
  | .fault _ => none
  | .refused r => some r

/-- The reason of a stop. -/
def stop (o : Outcome) : Option Fault :=
  match o with
  | .next _ => none
  | .fault r => some r
  | .refused _ => none

/-- The response words and one buffer's tuple after an answer. -/
def seen (d : Direction) (o : Outcome) : Option (List Word × Nat × Nat × Nat × Bool) :=
  (after o).map (fun s => (s.resp, (resolve d s).wc, (resolve d s).rc, (resolve d s).count, (resolve d s).full))

/-- The `fault` register and the response words after an answer. -/
def faultSeen (o : Outcome) : Option (Option FaultCode × List Word) := (after o).map (fun s => (s.fault, s.resp))

/-! ### Well-formedness: each check refuses an ill-formed term (R1, R63, R64) -/

theorem test_params_wf : (params 1).wf = true ∧ (params 254).wf = true ∧ Config.defaultParams.wf = true := by decide
theorem test_params_capacity_zero : (params 0).wf = false := by decide
theorem test_params_capacity_255 : (params 255).wf = false := by decide
theorem test_params_line_term : { params 4 with lineTerm := [0x0A#8, 0x0D#8, 0x0A#8] }.wf = false := by decide
theorem test_code_wf : codeWf [.writeLine 2#8, .payload 0x4F#8, .payload 0x4B#8, .gieSet] = true := by decide
theorem test_code_payload_at_boundary : codeWf [.gieSet, .payload 0x41#8] = false := by decide
theorem test_code_short_payload : codeWf [.writeLine 2#8, .payload 0x41#8] = false := by decide
theorem test_code_command_in_payload : codeWf [.writeLine 1#8, .gieSet] = false := by decide

/-! ### Decoding (95, 2.1): words written out from the tables of R60 to R69 -/

theorem test_decode_cbInit : decodeWord 0x1000#16 = .ok (.cbInit .receive) ∧
    decodeWord 0x1800#16 = .ok (.cbInit .transmit) := by decide
theorem test_decode_push : decodeWord 0x2041#16 = .ok (.push .receive 0x41#8) ∧
    decodeWord 0x28FF#16 = .ok (.push .transmit 0xFF#8) := by decide
theorem test_decode_pop : decodeWord 0x3000#16 = .ok (.pop .receive) ∧
    decodeWord 0x3800#16 = .ok (.pop .transmit) := by decide
theorem test_decode_len : decodeWord 0x4000#16 = .ok (.len .receive) ∧
    decodeWord 0x4800#16 = .ok (.len .transmit) := by decide
theorem test_decode_isFull : decodeWord 0x5000#16 = .ok (.isFull .receive) ∧
    decodeWord 0x5800#16 = .ok (.isFull .transmit) := by decide
theorem test_decode_isEmpty : decodeWord 0x6000#16 = .ok (.isEmpty .receive) ∧
    decodeWord 0x6800#16 = .ok (.isEmpty .transmit) := by decide
theorem test_decode_setEvent : decodeWord 0x7000#16 = .ok (.setEvent .receive false) ∧
    decodeWord 0x7801#16 = .ok (.setEvent .transmit true) := by decide
theorem test_decode_initTransport : decodeWord 0x8003#16 = .ok initializeDefault ∧
    decodeWord 0x800F#16 = .ok (.initTransport ⟨true, true, true, true⟩) ∧
    decodeWord 0x8007#16 = .ok (.initTransport ⟨true, true, true, false⟩) ∧
    decodeWord 0x8000#16 = .ok (.initTransport ⟨false, false, false, false⟩) := by decide
theorem test_decode_writeByte : decodeWord 0x9000#16 = .ok (.writeByte 0x00#8) ∧
    decodeWord 0x904F#16 = .ok (.writeByte 0x4F#8) := by decide
theorem test_decode_writeLine : decodeWord 0xA000#16 = .ok (.writeLine 0#8) ∧
    assemble [.writeLine 2#8, .payload 0x4F#8, .payload 0x4B#8] = [0xA002#16, 0xE04F#16, 0xE04B#16] := by decide
theorem test_decode_readByte : decodeWord 0xB000#16 = .ok .readByte := by decide
theorem test_decode_readLine : decodeWord 0xC000#16 = .ok (.readLine 0#8) ∧
    decodeWord 0xC0FF#16 = .ok (.readLine 255#8) := by decide
theorem test_decode_gie : decodeWord 0xD000#16 = .ok .gieClr ∧ decodeWord 0xD001#16 = .ok .gieSet := by decide
theorem test_decode_payload : decodeWord 0xE04F#16 = .ok (.payload 0x4F#8) := by decide

/-- Illegal words, one for each entry of R65's list. -/
theorem test_decode_illegal :
    decodeWord 0x0000#16 = .error .reservedOp ∧ decodeWord 0xF000#16 = .error .reservedOp ∧
    decodeWord 0x2141#16 = .error .reservedBits ∧ decodeWord 0x8803#16 = .error .directionGiven ∧
    decodeWord 0xD801#16 = .error .directionGiven ∧ decodeWord 0x1001#16 = .error .immediateGiven ∧
    decodeWord 0xB001#16 = .error .immediateGiven ∧ decodeWord 0x7002#16 = .error .eventEnable ∧
    decodeWord 0x8010#16 = .error .configuration ∧ decodeWord 0xD002#16 = .error .interruptEnable := by decide

/-- A row's bits as the table numbers them; a WRITE_LINE's operand words are zero above the row's bits. -/
theorem test_decodeTableWord : decodeTableWord 16 0xA002 = some (.writeLine 2#8) ∧ decodeTableWord 16 0x0000 = none := by
  decide

/-- A word is stored low byte first (R43 (c)). -/
theorem test_wordBytes : wordBytes 0x28FF#16 = [0xFF#8, 0x28#8] ∧ wordsOfBytes [0xFF#8, 0x28#8] = [0x28FF#16] := by decide

/-- Response words (R66, R67): status in bits 15:14, the value in bits 9:0. -/
theorem test_respWord : respWord .ok 2#10 = 0x0002#16 ∧ respWord .bufferFull 0#10 = 0x4000#16 ∧
    respWord .bufferEmpty 0#10 = 0x8000#16 ∧ respWord .more (byteValue 0x68#8) = 0xC068#16 := by decide

/-! ### Ring-buffer commands (95, 2.2) -/

theorem test_push_wraps : seen .receive (execPush .receive 0xAA#8
    { fresh 4 [] with rx := buf [] 3 1 2 false }) = some ([0x0000#16], 0, 1, 3, false) := by decide
theorem test_push_becomes_full : seen .receive (execPush .receive 0x01#8
    { fresh 3 [] with rx := buf [] 2 0 2 false }) = some ([0x0000#16], 0, 0, 3, true) := by decide
theorem test_pop_wraps : seen .receive (execPop .receive
    { fresh 4 [] with rx := buf [(3, 0x77#8)] 1 3 2 false }) = some ([0x0077#16], 1, 0, 1, false) := by decide
theorem test_pop_empty : seen .receive (execPop .receive
    { fresh 4 [] with rx := buf [] 2 2 0 false }) = some ([0x8000#16], 2, 2, 0, false) := by decide
theorem test_push_full : seen .transmit (execPush .transmit 0x5B#8
    { fresh 1 [] with tx := buf [(0, 0x5A#8)] 0 0 1 true }) = some ([0x4000#16], 0, 0, 1, true) := by decide
theorem test_len : seen .receive (execLen .receive
    { fresh 4 [] with rx := buf [] 2 0 2 false }) = some ([0x0002#16], 2, 0, 2, false) := by decide
theorem test_isFull : seen .receive (execIsFull .receive
    { fresh 4 [] with rx := buf [] 1 1 4 true }) = some ([0x0001#16], 1, 1, 4, true) := by decide
theorem test_isEmpty : seen .receive (execIsEmpty .receive
    { fresh 4 [] with rx := buf [] 1 1 4 true }) = some ([0x0000#16], 1, 1, 4, true) := by decide
theorem test_cbInit_keeps_cells : (after (execCbInit .receive
    { fresh 4 [] with rx := buf [(0, 0x01#8)] 2 0 2 false true })).map (·.rx) = some (buf [(0, 0x01#8)] 0 0 0 false) := by
  decide
theorem test_cbInit_live : faultSeen (execCbInit .receive (ready 4 [])) = some (some .cbinitLive, []) := by decide
theorem test_setEvent : (after (execSetEvent .transmit true (fresh 4 []))).map (fun s => (s.tx.evEn, s.rx.evEn, s.resp))
    = some (true, false, [0x0000#16]) := by decide

/-! ### Transport commands (95, 2.3) -/

theorem test_initialize_discards : (after (execInitialize (configure)
    { fresh 4 [] with rx := buf [(0, 0x01#8)] 1 0 1 false true })).map
      (fun s => (s.rx, s.init, s.txen, s.rxen, s.rxIntEn, s.txIntEn))
    = some (buf [(0, 0x01#8)] 0 0 0 false, true, true, true, true, false) := by decide
theorem test_initialize_reinit_first :
    faultSeen (execInitialize (configure) { ready 4 [] with gie := true }) = some (some .reinit, []) := by decide
theorem test_writeByte_pushes : (after (execWriteByte 0x41#8 (ready 4 []))).map (fun s => (s.tx, s.ustep, s.txIntEn, s.resp))
    = some (buf [(0, 0x41#8)] 1 0 1 false, .w2, false, []) := by decide
theorem test_writeByte_full : (after (execWriteByte 0x41#8 { ready 4 [] with tx := buf [] 1 1 4 true })).map
    (fun s => (s.resp, s.txIntEn)) = some ([0x4000#16], false) := by decide
/-- "ABC" into C = 4: four bytes enter, the last line terminator is dropped; nine micro-steps. -/
theorem test_writeLine_drops : (after (execTimes (.writeLine 3#8) 9
    (ready 4 [0xA003#16, 0xE041#16, 0xE042#16, 0xE043#16]))).map (fun s => (contents s .transmit, s.resp, s.pc, s.txIntEn))
    = some ([0x41#8, 0x42#8, 0x43#8, 0x0A#8], [0x0004#16], 4, true) := by decide
theorem test_readByte : seen .receive (execReadByte { ready 4 [] with rx := buf [(0, 0x68#8), (1, 0x69#8)] 2 0 2 false })
    = some ([0x0068#16], 2, 1, 1, false) := by decide
theorem test_readByte_uninit : faultSeen (execReadByte (fresh 4 [])) = some (some .uninit, []) := by decide
theorem test_readLine_fits : (after (execTimes (.readLine 2#8) 3 { ready 4 [] with rx := buf [(0, 0xAA#8)] 1 0 1 false })).map
    (fun s => (s.resp, s.rx.count, s.pc)) = some ([0xC0AA#16, 0xC000#16, 0x0001#16], 0, 1) := by decide
theorem test_readLine_no_room : (after (execTimes (.readLine 1#8) 2 { ready 4 [] with rx := buf [(0, 0xAA#8)] 1 0 1 false })).map
    (fun s => (s.fault, s.resp, s.rx.count)) = some (some .lineCap, [], 1) := by decide
theorem test_gieSet : (after (execGieSet (ready 4 []))).map (fun s => (s.gie, s.resp)) = some (true, [0x0000#16]) := by decide
theorem test_gieClr : (after (execGieClr { ready 4 [] with gie := true })).map (fun s => (s.gie, s.resp))
    = some (false, [0x0000#16]) := by decide
theorem test_payload_at_boundary : faultSeen (normalStep (ready 4 [0xE041#16])) = some (some .illegal, []) := by decide

/-! ### Glue, handlers, faults (95, 2.4 and 2.5) -/

theorem test_rx_arrive : (after (wireRx { ready 4 [] with arrivals := [0x7E#8] })).map (fun s => (s.rxData, s.rxc))
    = some (0x7E#8, true) := by decide
theorem test_rx_arrive_lost : (after (wireRx
    { ready 4 [] with arrivals := [0x7F#8], rxc := true, rxData := 0x7E#8 })).map (fun s => (s.rxData, s.rxc))
    = some (0x7E#8, true) := by decide
theorem test_tx_shift : (after (wireTx { ready 4 [] with dre := false, txData := 0x4F#8 })).map (fun s => (s.wireOut, s.dre))
    = some ([0x4F#8], true) := by decide
theorem test_frame_4F : frame 0x4F#8 = [false, true, true, true, true, false, false, true, false, true] := by decide
theorem test_frame_0A : frame 0x0A#8 = [false, false, true, false, true, false, false, false, false, true] := by decide
theorem test_rxh : (after (rxh { ready 4 [] with rxc := true, rxData := 0x68#8, rx := buf [] 0 0 0 false true })).map
    (fun s => (s.rxc, s.rx, s.evt)) = some (false, buf [(0, 0x68#8)] 1 0 1 false true, [.receive]) := by decide
theorem test_rxh_full : (after (rxh { ready 4 [] with rxc := true, rxData := 0x68#8, rx := buf [] 1 1 4 true true })).map
    (fun s => (s.rxc, s.rx, s.evt)) = some (false, buf [] 1 1 4 true true, []) := by decide
theorem test_txh_drains : (after (txh { ready 4 [] with txIntEn := true, tx := buf [(1, 0x42#8)] 2 1 1 false true })).map
    (fun s => (s.tx.count, s.txData, s.dre, s.txIntEn, s.evt)) = some (0, 0x42#8, false, false, [.transmit]) := by decide
theorem test_txh_empty : (after (txh { ready 4 [] with txIntEn := true, tx := buf [] 2 2 0 false true })).map
    (fun s => (s.dre, s.txIntEn, s.evt)) = some (true, false, []) := by decide
theorem test_fault_codes : [FaultCode.uninit, .reinit, .initGie, .cbinitLive, .lineCap, .illegal].map FaultCode.code
    = [1#3, 2#3, 3#3, 4#3, 5#3, 6#3] := by decide

/-! ### Reset, memory, fetching -/

theorem test_reset : cleanLaunch State.reset = true ∧ Memory.wf State.reset.rx.storage = true ∧
    Memory.wf State.reset.tx.storage = true := by decide
/-- Writing the byte an unlisted cell reads as unlists the cell. -/
theorem test_memory_canonical : Memory.write (Memory.write [] 3 0x41#8) 3 0x00#8 = [] ∧
    Memory.write (Memory.write [] 3 0x41#8) 1 0x42#8 = [(1, 0x42#8), (3, 0x41#8)] := by decide
theorem test_withFetchWord : (after (step (State.reset.withFetchWord 16 0x2041))).map (fun s => (s.resp, s.rx.count, s.pc))
    = some ([0x0000#16], 1, 1) := by decide
/-- After reset nothing can happen until a stream is loaded (R196: an empty stream is a good end). -/
theorem test_reset_is_an_end : stop (step State.reset) = some .endOfRun := by decide

/-! ### Assembler lines (R70, R71) -/

theorem test_asm_push : asmLine "PUSH RX, 'a'" = some [.push .receive 0x61#8] := by decide
/-- R70's own example of a hexadecimal operand, a hexadecimal one in mixed case, and its example of a decimal one. -/
theorem test_asm_numbers : (asmLine "PUSH RX, 0x41").map assemble = some [0x2041#16] ∧
    (asmLine "PUSH TX, 0xfF").map assemble = some [0x28FF#16] ∧ (asmLine "READ_LINE 8").map assemble = some [0xC008#16] := by
  decide
theorem test_asm_text : (asmLine "WRITE_LINE \"OK\"").map assemble = some [0xA002#16, 0xE04F#16, 0xE04B#16] := by decide
theorem test_asm_configure : (asmLine "INITIALIZE CONFIGURE(txcb=1) ; comment").map assemble = some [0x800B#16] := by decide

/-! ### Witnesses: concrete states and operands that meet the hypotheses of each obligation -/

/-- `ready` with a Receive buffer holding one byte, and a Transmit buffer holding one. -/
def held : State :=
  { ready 4 [] with rx := buf [(0, 0x68#8)] 1 0 1 false, tx := buf [(0, 0x41#8)] 1 0 1 false }

/-- `ready` with both buffers full, C = 1. -/
def filled : State :=
  { ready 1 [] with rx := buf [(0, 0x68#8)] 0 0 1 true, tx := buf [(0, 0x41#8)] 0 0 1 true }

/-- A WRITE_BYTE with the transmitter not enabled. -/
def transmitterOff : State := { ready 4 [0x9041#16] with txen := false }

/-- A received byte waits while global interrupts are off, and the stream has ended. -/
def waiting : State := { ready 4 [] with rxc := true }

/-- A fault has been taken. -/
def halted : State := { ready 4 [0xD001#16] with fault := some .reinit }

/-- The largest capacity, full. -/
def largest : State := { fresh 254 [] with rx := buf [] 7 7 254 true }

/-- Both handlers may step: a received byte waits, and a byte is there to transmit. -/
def busy : State := { held with gie := true, rxc := true, rxData := 0x69#8, txIntEn := true }

theorem witness_EncodeOfDecode : decodeWord 0x2041#16 = .ok (.push .receive 0x41#8) := by decide
theorem witness_WordIsOfItsRow : rowOf (.writeByte 0#8) ∈ opcodeMap ∧
    0x904F#16 &&& (rowOf (.writeByte 0#8)).mask = (rowOf (.writeByte 0#8)).pattern := by decide

/-- An illegal word, and a WRITE_LINE whose payload is missing; both fault. -/
theorem witness_IllegalWordsFault :
    ((fresh 4 [0x0000#16]).prog[(fresh 4 [0x0000#16]).pc]? = some 0x0000#16 ∧ (fresh 4 [0x0000#16]).ustep = .idle ∧
      (fresh 4 [0x0000#16]).fault = none ∧ illegalAtBoundary 0x0000#16) ∧
    ((fresh 4 [0xA001#16]).prog[(fresh 4 [0xA001#16]).pc]? = some 0xA001#16 ∧ (fresh 4 [0xA001#16]).ustep = .idle ∧
      (fresh 4 [0xA001#16]).fault = none ∧ decodeWord 0xA001#16 = .ok (.writeLine 1#8) ∧
      linePayload 1#8 (fresh 4 [0xA001#16]) = none) :=
  ⟨⟨rfl, rfl, rfl, .inl rfl⟩, ⟨rfl, rfl, rfl, by decide, by decide⟩⟩

theorem witness_WellFormedCodeIsNeverIllegal :
    restWf (fresh 4 [0xA001#16, 0xE041#16, 0xD001#16]) ∧ ∃ t, step (fresh 4 [0xA001#16, 0xE041#16, 0xD001#16]) = .next t :=
  ⟨⟨[.writeLine 1#8, .payload 0x41#8, .gieSet], by decide, by decide⟩, ⟨_, rfl⟩⟩

theorem witness_StepRunsDecodedInstruction :
    let s := { fresh 4 [0xD001#16] with turns := [.normal, .rxh] }
    s.turns = [.normal, .rxh] ∧ s.fault = none ∧ s.pc < s.prog.length ∧ fetch s = .ok .gieSet := by decide

theorem witness_AnyEnabledAgentMayStep : enabled .rxh busy = true ∧ enabled .wireTx busy = false := by decide

theorem witness_StepIsOneEnabledAgentsStep : ∃ t, step { busy with turns := [.txh] } = .next t := ⟨_, rfl⟩

theorem witness_RunIsOverIffNoAgentIsEnabled : (∀ a ∈ Agent.all, enabled a State.reset = false) ∧
    enabled .txh busy = true := by decide

/-- Each agent is enabled somewhere. -/
theorem witness_EnableConditions : enabled .normal (fresh 4 [0xD001#16]) = true ∧ enabled .rxh busy = true ∧
    enabled .txh busy = true ∧ enabled .wireRx { busy with arrivals := [0x01#8] } = true ∧
    enabled .wireTx { busy with dre := false } = true := by decide

/-- A run of GIE_SETs, of which NORMAL takes every step; it is as long as any bound asks. -/
def gieRun (n k : Nat) : State :=
  { fresh 4 (List.replicate n 0xD001#16) with gie := decide (0 < k), pc := k, resp := List.replicate k 0x0000#16 }

theorem gieRun_enabled {n k : Nat} (h : k < n) : enabled .normal (gieRun n k) = true := by
  simp [enabled, gieRun, fresh, State.launch, h]

theorem gieRun_step {n k : Nat} (h : k < n) : step (gieRun n k) = .next (gieRun n (k + 1)) := by
  have he : enabledAgents (gieRun n k) = [.normal] := by
    simp [enabledAgents, Agent.all, enabled, irqRx, irqTx, gieRun, fresh, State.launch, h]
  have hf : fetch (gieRun n k) = .ok .gieSet := by
    have hw : (List.replicate n 0xD001#16)[k]? = some 0xD001#16 := by simp [h]
    simp only [fetch, gieRun, fresh, State.launch, hw]
    decide
  have hn : nextTurn (gieRun n k) = some (.normal, gieRun n k) := by
    simp only [nextTurn, show dueTurns (gieRun n k).turns (gieRun n k) = [] from rfl, he]
    rfl
  simp only [step, hn, agentStep, normalStep, hf]
  simp only [exec, execGieSet, finish, complete, respond, gieRun, fresh, State.launch, List.replicate_succ', Nat.zero_lt_succ,
    decide_true]
  rfl

theorem witness_WeakFairness : ∃ (run : Nat → State) (n : Nat), (∀ k, k < n → step (run k) = .next (run (k + 1))) ∧
    (∀ k, k < n → enabled .normal (run k) = true) ∧ waitBound (run 0) ≤ n ∧ 0 < n :=
  ⟨gieRun (waitBound (fresh 4 []) + 1), waitBound (fresh 4 []) + 1, fun _ => gieRun_step, fun _ => gieRun_enabled,
    Nat.le_succ _, Nat.succ_pos _⟩

theorem witness_ResetRegisterValues : cleanLaunch { fresh 4 [0xD001#16] with round := 3 } = true := by decide
theorem witness_InvariantHoldsAtLaunch : (params 1).wf = true ∧ (params 254).wf = true := by decide

/-- A state of the invariant for each agent, and its step. -/
theorem witness_StepKeepsInvariant :
    State.Inv { busy with turns := [.rxh] } ∧ State.Inv { busy with turns := [.txh] } ∧
    State.Inv (ready 4 [0xA001#16, 0xE041#16]) ∧ (∃ t, step { busy with turns := [.rxh] } = .next t) ∧
    (∃ t, step { busy with turns := [.txh] } = .next t) ∧ ∃ t, step (ready 4 [0xA001#16, 0xE041#16]) = .next t :=
  ⟨by decide, by decide, by decide, ⟨_, rfl⟩, ⟨_, rfl⟩, ⟨_, rfl⟩⟩

/-- A state reached by a step: PUSH RX has filled a buffer of one byte. -/
theorem witness_ReachableStatesMeetBufferInvariants : ∃ s, Reachable s ∧ s.rx.full = true ∧ s.rx.count = 1 :=
  ⟨_, .step (fresh 1 [0x2041#16]) _ (.launch (params 1) [0x2041#16] [] [] (by decide)) rfl, rfl, rfl⟩

/-- A line about to take W1, and a READ_LINE in its loop. -/
theorem witness_RegistersFitTheirWidths :
    (let s := { ready 4 [0xA001#16, 0xE041#16] with ustep := .w1, wlIdx := 2, wlEnq := 2 }
     s.Inv ∧ fetch s = .ok (.writeLine 1#8) ∧ s.ustep ≠ .idle) ∧
    (let s := { ready 4 [0xC0FF#16] with ustep := .l2, rlEmitted := 254 }
     s.Inv ∧ s.ustep = .l2 ∧ s.rlEmitted = 254) := by decide

/-- The three ways: a next state, no agent enabled, a refused WRITE_BYTE. -/
theorem witness_InvariantStatesStopOnlyAsTheSpecSays :
    State.Inv (ready 4 [0xD001#16]) ∧ (after (step (ready 4 [0xD001#16]))).isSome ∧ State.reset.Inv ∧
    transmitterOff.Inv ∧ refusal (step transmitterOff) = some .transmitDisabled ∧
    fetch transmitterOff = .ok (.writeByte 0x41#8) :=
  ⟨by decide, by decide, by decide, by decide, by decide, by decide⟩

/-- A good end, a stuck state, a halted one. -/
theorem witness_RunEndsWellOrStuckOrHalted :
    (goodEnd (ready 4 []) = true ∧ State.Inv (ready 4 [])) ∧
    (waiting.Inv ∧ waiting.fault = none ∧ (∀ a ∈ Agent.all, enabled a waiting = false) ∧
      stop (step waiting) = some .stuck) ∧
    (halted.fault = some .reinit ∧ (∀ a ∈ Agent.all, enabled a halted = false) ∧
      stop (step halted) = some (.halted .reinit)) :=
  ⟨⟨by decide, by decide⟩, ⟨by decide, by decide, by decide, by decide⟩, by decide⟩

theorem witness_StepNeverTakesBack : (ready 4 [0xD001#16]).init = true ∧ (ready 4 [0xD001#16]).rxIntEn = true ∧
    ∃ t, step (ready 4 [0xD001#16]) = .next t := ⟨rfl, rfl, ⟨_, rfl⟩⟩

/-- A command that faults; a line step after a fault. -/
theorem witness_RaisingAFaultChangesNothingElse :
    (∃ t, exec .readByte (fresh 4 []) = .next t ∧ t.fault ≠ (fresh 4 []).fault) ∧
    (let s := { ready 4 [] with fault := some .lineCap, dre := false }
     s.fault ≠ none ∧ ∃ t, step s = .next t) :=
  ⟨⟨_, rfl, by decide⟩, by decide, ⟨_, rfl⟩⟩

theorem witness_HandlersAndLineNeverFault :
    busy.Inv ∧ enabled .rxh busy = true ∧ enabled .txh busy = true ∧
    (let s := { busy with arrivals := [0x01#8], dre := false }
     s.Inv ∧ enabled .wireRx s = true ∧ enabled .wireTx s = true) := by decide

theorem witness_TransportBeforeInitFaults :
    let s := fresh 4 [0xA001#16, 0xE041#16]
    s.init = false ∧ s.ustep = .idle ∧ s.fault = none ∧ linePayload 1#8 s ≠ none ∧ linePayload 2#8 s = none := by decide

theorem witness_WritesWithTransmitterOffAreRefused :
    let s := { ready 4 [0xA001#16, 0xE041#16] with txen := false }
    s.init = true ∧ s.txen = false ∧ s.ustep = .idle ∧ linePayload 1#8 s ≠ none := by decide

theorem witness_CbInitEmptiesOrFaults :
    (held.rxIntEn = true ∧ held.fault = none) ∧ (fresh 4 []).rxIntEn = false ∧ (fresh 4 []).txIntEn = false := by decide

/-- The full buffer of one byte, a push that fills, a push that does not. -/
theorem witness_PushAppendsOrReportsFull :
    (resolve .receive filled).full = true ∧
    (Buffer.Inv (fresh 1 []).params.capacity (resolve .transmit (fresh 1 [])) ∧ (resolve .transmit (fresh 1 [])).full = false) ∧
    (Buffer.Inv held.params.capacity (resolve .receive held) ∧ (resolve .receive held).full = false) := by decide

theorem witness_PopTakesOldestOrReportsEmpty :
    (resolve .receive (fresh 1 [])).count = 0 ∧
    (Buffer.Inv filled.params.capacity (resolve .receive filled) ∧ 0 < (resolve .receive filled).count) ∧
    (Buffer.Inv held.params.capacity (resolve .transmit held) ∧ 0 < (resolve .transmit held).count) := by decide

/-- LEN and IS_FULL at the largest capacity, full. -/
theorem witness_LenAndIsFull : held.Inv ∧ filled.Inv ∧ largest.Inv := ⟨by decide, by decide, by decide⟩

theorem witness_PushesThenPopsGiveTheBytesBack : (fresh 2 []).BuffersInv ∧ (resolve .receive (fresh 2 [])).count = 0 ∧
    [0x01#8, 0x02#8].length ≤ (fresh 2 []).params.capacity := by decide

theorem witness_InitializeSetsUpTheTransport : (fresh 4 []).init = false ∧ (fresh 4 []).gie = false := by decide

theorem witness_InitializeOutOfOrderFaults :
    ((ready 4 []).fault = none ∧ (ready 4 []).init = true) ∧
    (let s := { fresh 4 [] with gie := true }
     s.fault = none ∧ s.init = false ∧ s.gie = true) := by decide

theorem witness_WriteByteFirstPushes : (ready 1 []).init = true ∧ (ready 1 []).txen = true ∧ (ready 1 []).ustep = .idle ∧
    Buffer.Inv (ready 1 []).params.capacity (ready 1 []).tx ∧ (ready 1 []).tx.full = false := by decide

theorem witness_WriteByteThenArmsOrReportsFull : { held with ustep := UStep.w2 }.ustep = .w2 ∧
    (filled.init = true ∧ filled.txen = true ∧ filled.ustep = .idle ∧ filled.tx.full = true) := by decide

/-- Nothing to write; a first byte that enters; one that finds the buffer full, in a longer line and as the only byte. -/
theorem witness_WriteLineFirstMicroStep :
    (let s := { ready 4 [0xA000#16] with params := { params 4 with lineTerm := [] } }
     s.init = true ∧ s.txen = true ∧ s.ustep = .idle ∧ linePayload 0#8 s = some [] ∧
      Buffer.Inv s.params.capacity s.tx ∧ [] ++ s.params.lineTerm = []) ∧
    (let s := ready 4 [0xA001#16, 0xE041#16]
     s.init = true ∧ s.txen = true ∧ s.ustep = .idle ∧ linePayload 1#8 s = some [0x41#8] ∧
      Buffer.Inv s.params.capacity s.tx ∧ [0x41#8] ++ s.params.lineTerm = 0x41#8 :: [0x0A#8, 0x0D#8] ∧ s.tx.full = false) ∧
    (let s := { filled with prog := [0xA001#16, 0xE041#16] }
     s.init = true ∧ s.txen = true ∧ s.ustep = .idle ∧ linePayload 1#8 s = some [0x41#8] ∧
      Buffer.Inv s.params.capacity s.tx ∧ [0x41#8] ++ s.params.lineTerm = 0x41#8 :: [0x0A#8, 0x0D#8] ∧ s.tx.full = true) ∧
    (let s := { filled with prog := [0xA001#16, 0xE041#16], params := { params 1 with lineTerm := [] } }
     s.init = true ∧ s.txen = true ∧ s.ustep = .idle ∧ linePayload 1#8 s = some [0x41#8] ∧
      Buffer.Inv s.params.capacity s.tx ∧ [0x41#8] ++ s.params.lineTerm = 0x41#8 :: [] ∧ s.tx.full = true) := by decide

/-- A middle byte that enters after an earlier one was dropped; one that is dropped; the last byte dropped. -/
theorem witness_WriteLineLaterMicroStep :
    (let s := { ready 4 [0xA001#16, 0xE041#16] with ustep := .w1, wlIdx := 1, wlEnq := 0 }
     s.ustep = .w1 ∧ linePayload 1#8 s = some [0x41#8] ∧ ([0x41#8] ++ s.params.lineTerm)[s.wlIdx]? = some 0x0A#8 ∧
      Buffer.Inv s.params.capacity s.tx ∧ s.tx.full = false) ∧
    (let s := { filled with prog := [0xA001#16, 0xE041#16], ustep := .w1, wlIdx := 1, wlEnq := 1 }
     s.ustep = .w1 ∧ linePayload 1#8 s = some [0x41#8] ∧ ([0x41#8] ++ s.params.lineTerm)[s.wlIdx]? = some 0x0A#8 ∧
      Buffer.Inv s.params.capacity s.tx ∧ s.tx.full = true ∧ s.wlIdx + 1 ≠ ([0x41#8] ++ s.params.lineTerm).length) ∧
    (let s := { filled with prog := [0xA001#16, 0xE041#16], ustep := .w1, wlIdx := 2, wlEnq := 1 }
     s.ustep = .w1 ∧ linePayload 1#8 s = some [0x41#8] ∧ ([0x41#8] ++ s.params.lineTerm)[s.wlIdx]? = some 0x0D#8 ∧
      Buffer.Inv s.params.capacity s.tx ∧ s.tx.full = true ∧ s.wlIdx + 1 = ([0x41#8] ++ s.params.lineTerm).length) := by
  decide

/-- In the middle of a line and at its last byte. -/
theorem witness_WriteLineArmsAfterEachByte :
    (let s := { ready 4 [0xA001#16, 0xE041#16] with ustep := .w2, wlIdx := 0, wlEnq := 1 }
     s.ustep = .w2 ∧ linePayload 1#8 s = some [0x41#8] ∧ s.wlIdx + 1 ≠ ([0x41#8] ++ s.params.lineTerm).length) ∧
    (let s := { ready 4 [0xA001#16, 0xE041#16] with ustep := .w2, wlIdx := 2, wlEnq := 3 }
     s.ustep = .w2 ∧ linePayload 1#8 s = some [0x41#8] ∧ s.wlIdx + 1 = ([0x41#8] ++ s.params.lineTerm).length) := by decide

/-- A line that fits, and one into a full buffer. -/
theorem witness_WriteLineEnqueuesWhatFits :
    (let s := ready 4 [0xA001#16, 0xE041#16]
     s.init = true ∧ s.txen = true ∧ s.ustep = .idle ∧ s.params.wf = true ∧ Buffer.Inv s.params.capacity s.tx ∧
      linePayload 1#8 s = some [0x41#8]) ∧
    (let s := { filled with prog := [0xA001#16, 0xE041#16] }
     s.init = true ∧ s.txen = true ∧ s.ustep = .idle ∧ s.params.wf = true ∧ Buffer.Inv s.params.capacity s.tx ∧
      linePayload 1#8 s = some [0x41#8]) := by decide

theorem witness_ReadByteTakesTheOldestByte :
    ((ready 1 []).init = true ∧ Buffer.Inv (ready 1 []).params.capacity (ready 1 []).rx ∧ (ready 1 []).rx.count = 0) ∧
    (filled.init = true ∧ Buffer.Inv filled.params.capacity filled.rx ∧ 0 < filled.rx.count) := by decide

theorem witness_ReadLineTestsEmptinessFirst :
    ((ready 1 []).init = true ∧ (ready 1 []).ustep = .idle ∧ (ready 1 []).rx.count = 0) ∧
    (filled.init = true ∧ filled.ustep = .idle ∧ 0 < filled.rx.count) := by decide

/-- The end of the loop; no room for one more byte; room for exactly one and the terminator. -/
theorem witness_ReadLineLoopMicroStep :
    (let s := { ready 4 [] with ustep := .l2, rlEmitted := 1 }
     s.ustep = .l2 ∧ s.fault = none ∧ Buffer.Inv s.params.capacity s.rx ∧ s.rx.count = 0) ∧
    (let s := { held with ustep := .l2, rlEmitted := 1 }
     s.ustep = .l2 ∧ s.fault = none ∧ Buffer.Inv s.params.capacity s.rx ∧ 0 < s.rx.count ∧ s.rlEmitted + 2 > (2#8).toNat) ∧
    (let s := { held with ustep := .l2, rlEmitted := 1 }
     s.ustep = .l2 ∧ s.fault = none ∧ Buffer.Inv s.params.capacity s.rx ∧ 0 < s.rx.count ∧ s.rlEmitted + 2 ≤ (3#8).toNat) := by
  decide

/-- Room for the byte and the terminator exactly (m = 2), and one too few (m = 1), and none (m = 0). -/
theorem witness_ReadLineDeliversTheHeldBytes :
    (held.init = true ∧ held.ustep = .idle ∧ held.fault = none ∧ held.params.wf = true ∧
      Buffer.Inv held.params.capacity held.rx ∧ 0 < held.rx.count) ∧
    held.rx.count + 1 ≤ (2#8).toNat ∧ (1#8).toNat < held.rx.count + 1 ∧ (0#8).toNat < held.rx.count + 1 := by decide

theorem witness_GieCommandsWriteTheGlobalEnable : held.gie = false := by decide
theorem witness_PayloadOutOfPlaceFaults : held.fault = none := by decide

theorem witness_ReceiveHandlerPushesTheByte :
    (Buffer.Inv filled.params.capacity filled.rx ∧ filled.rx.full = true) ∧
    (Buffer.Inv busy.params.capacity busy.rx ∧ busy.rx.full = false) := by decide

/-- Entered empty, with one byte (the pop drains the buffer), with two. -/
theorem witness_TransmitHandlerSendsOrDisarms :
    (Buffer.Inv (ready 4 []).params.capacity (ready 4 []).tx ∧ (ready 4 []).dre = true ∧ (ready 4 []).tx.count = 0) ∧
    (Buffer.Inv busy.params.capacity busy.tx ∧ busy.dre = true ∧ busy.tx.count = 1) ∧
    (let s := { ready 4 [] with tx := buf [(0, 0x41#8), (1, 0x42#8)] 2 0 2 false }
     Buffer.Inv s.params.capacity s.tx ∧ s.dre = true ∧ s.tx.count = 2) := by decide

theorem witness_ArrivingByteIsTakenOrLost :
    ({ held with arrivals := [0x7E#8] }.arrivals = 0x7E#8 :: [] ∧ held.rxc = false) ∧
    ({ busy with arrivals := [0x7E#8] }.arrivals = 0x7E#8 :: [] ∧ busy.rxc = true) := by decide

theorem witness_ContractPrimitives : held.dre = true ∧ { held with dre := false }.dre = false := by decide

theorem witness_HandlersCommute : busy.Inv ∧ enabled .rxh busy = true ∧ enabled .txh busy = true := by decide

theorem witness_FrameRoundTrip :
    [false, true, true, true, true, false, false, true, false, false][9]? = some false := by decide

/-- A step that appends, one that removes, one that empties. -/
theorem witness_ContentsAreFifo :
    (State.Inv { busy with turns := [.rxh] } ∧ ∃ t, step { busy with turns := [.rxh] } = .next t ∧
      contents t .receive = contents busy .receive ++ [0x69#8]) ∧
    (State.Inv { busy with turns := [.txh] } ∧ ∃ t, step { busy with turns := [.txh] } = .next t ∧
      contents busy .transmit = 0x41#8 :: contents t .transmit) ∧
    (let s := { fresh 4 [0x1000#16] with rx := buf [(0, 0x68#8)] 1 0 1 false }
     s.Inv ∧ ∃ t, step s = .next t ∧ contents t .receive = [] ∧ fetch s = .ok (.cbInit .receive)) :=
  ⟨⟨by decide, _, rfl, by decide⟩, ⟨by decide, _, rfl, by decide⟩, ⟨by decide, _, rfl, by decide, by decide⟩⟩

/-- A turn of TXH on a byte; a turn of TXH on an empty buffer; a turn of WIRE_TX, which moves a byte onto the line. -/
theorem witness_LineCarriesThePoppedBytesInOrder :
    (let s := { busy with turns := [.txh] }
     s.Inv ∧ (∃ t, step s = .next t ∧ sentBytes t = sentBytes s ++ [0x41#8]) ∧
      (∃ s1, nextTurn s = some (.txh, s1)) ∧ contents s .transmit ≠ []) ∧
    (let s := { ready 4 [] with gie := true, txIntEn := true }
     s.Inv ∧ (∃ t, step s = .next t) ∧ (∃ s1, nextTurn s = some (.txh, s1)) ∧ contents s .transmit = []) ∧
    (let s := { held with dre := false, txData := 0x41#8 }
     s.Inv ∧ (∃ t, step s = .next t ∧ sentBytes t = sentBytes s) ∧ ∃ s1, nextTurn s = some (.wireTx, s1)) :=
  ⟨⟨by decide, ⟨_, rfl, by decide⟩, ⟨_, rfl⟩, by decide⟩, ⟨by decide, ⟨_, rfl⟩, ⟨_, rfl⟩, by decide⟩,
    ⟨by decide, ⟨_, rfl, by decide⟩, ⟨_, rfl⟩⟩⟩

theorem witness_OthersOnlyFillReceiveAndDrainTransmit :
    (∃ t, agentStep .rxh busy = .next t) ∧ (∃ t, agentStep .txh busy = .next t) ∧
    (∃ t, agentStep .wireRx busy = .next t) ∧ ∃ t, agentStep .wireTx busy = .next t :=
  ⟨⟨_, rfl⟩, ⟨_, rfl⟩, ⟨_, rfl⟩, ⟨_, rfl⟩⟩

/-- Commands that answer a next state; PUSH stores at cell 1 of RX and leaves cell 0 and the other buffer. -/
theorem witness_CommandFrames :
    (∃ t, exec (.push .receive 0x42#8) held = .next t) ∧ (Direction.receive ≠ .receive ∨ 0 ≠ (resolve .receive held).wc) ∧
    (∃ t, exec (.writeByte 0x42#8) held = .next t) ∧ (Direction.receive ≠ .transmit ∨ 1 ≠ held.tx.wc) ∧
    ∃ t, exec (.pop .receive) held = .next t :=
  ⟨⟨_, rfl⟩, by decide, ⟨_, rfl⟩, by decide, ⟨_, rfl⟩⟩

/-- RXH storing at cell 1 and leaving cell 0; RXH on a full buffer; the other three. -/
theorem witness_HandlersAndLineFrame :
    (∃ t, agentStep .rxh busy = .next t ∧ cell t .receive 1 = 0x69#8) ∧ 0 ≠ busy.rx.wc ∧
    (∃ t, agentStep .rxh filled = .next t) ∧ (∃ t, agentStep .txh filled = .next t) ∧
    (∃ t, agentStep .wireRx filled = .next t) ∧ ∃ t, agentStep .wireTx filled = .next t :=
  ⟨⟨_, rfl, by decide⟩, by decide, ⟨_, rfl⟩, ⟨_, rfl⟩, ⟨_, rfl⟩, ⟨_, rfl⟩⟩

end Sys2Proof.Machine.Tests
end

namespace Sys2Proof.Machine

/-! ## State: what one micro-step of a command can do -/

/-- Where a W1 of WRITE_LINE works: at the first byte when L0 has just passed its tests, otherwise where the progress
registers stand (spec/41_transport.md R108). -/
def LineAt (s : State) (k e : Nat) : Prop :=
  (s.init = true ∧ s.txen = true ∧ k = 0 ∧ e = 0) ∨ (s.ustep = .w1 ∧ k = s.wlIdx ∧ e = s.wlEnq)

/-- Everything a micro-step of a command that answers a next state can do, with the tests a byte, a line or a loop has passed
by then. -/
inductive CommandStep (s : State) : Instr → State → Prop where
  | fault (i : Instr) (c : FaultCode) : CommandStep s i (raiseFault c s)
  | answer (i : Instr) (st : Status) (v : BitVec 10) (hi : i.operandWords = 0) : CommandStep s i (finish st v 1 s)
  | answerLine (n : Byte) (hl : linePayload n s ≠ none) :
      CommandStep s (.writeLine n) (finish .ok 0#10 (1 + n.toNat) { s with wlIdx := 0, wlEnq := 0 })
  | cbInit (d : Direction) : CommandStep s (.cbInit d) (finish .ok 0#10 1 (setBuffer d (resolve d s).clear s))
  | push (d : Direction) (b : Byte) (q : Buffer) (hq : (resolve d s).push s.params.capacity b = .ok q) :
      CommandStep s (.push d b) (finish .ok 0#10 1 (setBuffer d q s))
  | pop (d : Direction) (b : Byte) (q : Buffer) (hq : (resolve d s).pop s.params.capacity = .ok b q) :
      CommandStep s (.pop d) (finish .ok (byteValue b) 1 (setBuffer d q s))
  | setEvent (d : Direction) (en : Bool) :
      CommandStep s (.setEvent d en) (finish .ok 0#10 1 (setBuffer d { resolve d s with evEn := en } s))
  | setUp (cfg : TransportConfig) (hi : s.init = false) :
      CommandStep s (.initTransport cfg) (finish .ok 0#10 1 { s with
        rx := { s.rx.clear with evEn := cfg.rxCallback }, tx := { s.tx.clear with evEn := cfg.txCallback }
        txen := cfg.txEnable, rxen := cfg.rxEnable, rxIntEn := true, init := true })
  | gieClr : CommandStep s .gieClr (finish .ok 0#10 1 { s with gie := false })
  | gieSet : CommandStep s .gieSet (finish .ok 0#10 1 { s with gie := true })
  | byteEnqueued (b : Byte) (q : Buffer) (hi : s.init = true) (htx : s.txen = true)
      (hq : s.tx.push s.params.capacity b = .ok q) : CommandStep s (.writeByte b) { s with tx := q, ustep := .w2 }
  | byteArmed (b : Byte) (hu : s.ustep = .w2) :
      CommandStep s (.writeByte b) (finish .ok 0#10 1 { s with txIntEn := true })
  | lineEnqueued (n : Byte) (bs : List Byte) (k e : Nat) (b : Byte) (q : Buffer) (hl : linePayload n s = some bs)
      (hat : LineAt s k e) (hk : k < (lineBytes s bs).length) (hq : s.tx.push s.params.capacity b = .ok q) :
      CommandStep s (.writeLine n) { s with tx := q, wlIdx := k, wlEnq := e + 1, ustep := .w2 }
  | lineDropped (n : Byte) (bs : List Byte) (k e : Nat) (hl : linePayload n s = some bs)
      (hat : LineAt s k e) (hk : k < (lineBytes s bs).length) :
      CommandStep s (.writeLine n)
        (writeLineNext (lineBytes s bs).length (1 + n.toNat) { s with wlIdx := k + 1, wlEnq := e })
  | lineArmed (n : Byte) (bs : List Byte) (hl : linePayload n s = some bs) (hu : s.ustep = .w2) :
      CommandStep s (.writeLine n)
        (writeLineNext (lineBytes s bs).length (1 + n.toNat) { s with txIntEn := true, wlIdx := s.wlIdx + 1 })
  | readByte (b : Byte) (q : Buffer) (hi : s.init = true) (hq : s.rx.pop s.params.capacity = .ok b q) :
      CommandStep s .readByte (finish .ok (byteValue b) 1 { s with rx := q })
  | readLineStart (m : Byte) (hi : s.init = true) (hc : s.rx.count ≠ 0) :
      CommandStep s (.readLine m) { s with rlEmitted := 0, ustep := .l2 }
  | readLineByte (m : Byte) (b : Byte) (q : Buffer) (hu : s.ustep = .l2) (hq : s.rx.pop s.params.capacity = .ok b q)
      (hm : s.rlEmitted + 2 ≤ m.toNat) :
      CommandStep s (.readLine m) (respond .more (byteValue b) { s with rx := q, rlEmitted := s.rlEmitted + 1 })
  | readLineEnd (m : Byte) (hu : s.ustep = .l2) (hc : s.rx.count = 0) :
      CommandStep s (.readLine m)
        (finish .ok (countValue s.rlEmitted) 1 (respond .more (byteValue s.params.readTerm) s))

section
variable {s t : State}

theorem execCbInit_next {d : Direction} (h : execCbInit d s = .next t) : CommandStep s (.cbInit d) t := by
  unfold execCbInit at h
  split at h <;> obtain rfl := Host.Outcome.next.inj h
  · exact .fault _ _
  · exact .cbInit d

theorem execInitialize_next {cfg : TransportConfig} (h : execInitialize cfg s = .next t) :
    CommandStep s (.initTransport cfg) t := by
  unfold execInitialize at h
  split at h
  · obtain rfl := Host.Outcome.next.inj h
    exact .fault _ _
  · next hi =>
    split at h <;> obtain rfl := Host.Outcome.next.inj h
    · exact .fault _ _
    · exact .setUp cfg (by simpa using hi)

theorem execWriteByte_next {b : Byte} (h : execWriteByte b s = .next t) : CommandStep s (.writeByte b) t := by
  have first (hw : writeByteW1 b s = .next t) : CommandStep s (.writeByte b) t := by
    obtain ⟨-, rfl⟩ | ⟨hi, htx, ⟨q, hq, rfl⟩ | ⟨-, rfl⟩⟩ := writeByteW1_next hw
    · exact .fault _ _
    · exact .byteEnqueued b q hi htx hq
    · exact .answer _ _ _ rfl
  unfold execWriteByte at h
  split at h
  · next hu =>
    obtain rfl := Host.Outcome.next.inj h
    exact .byteArmed b hu
  all_goals exact first h

/-- A W1 of WRITE_LINE enqueues its byte or drops it. -/
theorem writeLineW1_commandStep {n : Byte} {bs : List Byte} {k e : Nat} (hl : linePayload n s = some bs)
    (hat : LineAt s k e)
    (h : writeLineW1 (lineBytes s bs) (1 + n.toNat) { s with wlIdx := k, wlEnq := e } = .next t) :
    CommandStep s (.writeLine n) t := by
  obtain ⟨b, hb, ⟨q, hq, rfl⟩ | ⟨-, rfl⟩⟩ := writeLineW1_next h
  all_goals obtain ⟨hk, -⟩ := List.getElem?_eq_some_iff.mp hb
  · exact .lineEnqueued n bs k e b q hl hat hk hq
  · exact .lineDropped n bs k e hl hat hk

theorem execWriteLine_next {n : Byte} (h : execWriteLine n s = .next t) : CommandStep s (.writeLine n) t := by
  unfold execWriteLine at h
  split at h
  · obtain rfl := Host.Outcome.next.inj h
    exact .fault _ _
  · next bs hl =>
    have first (hw : writeLineL0 (lineBytes s bs) (1 + n.toNat) s = .next t) : CommandStep s (.writeLine n) t := by
      obtain ⟨-, rfl⟩ | ⟨hi, htx, ⟨-, rfl⟩ | ⟨-, hw1⟩⟩ := writeLineL0_next hw
      · exact .fault _ _
      · exact .answerLine n (by simp [hl])
      · exact writeLineW1_commandStep hl (.inl ⟨hi, htx, rfl, rfl⟩) hw1
    split at h
    · next hu => exact writeLineW1_commandStep hl (.inr ⟨hu, rfl, rfl⟩) h
    · next hu =>
      obtain rfl := Host.Outcome.next.inj h
      exact .lineArmed n bs hl hu
    all_goals exact first h

theorem execReadByte_next (h : execReadByte s = .next t) : CommandStep s .readByte t := by
  unfold execReadByte at h
  split at h
  · obtain rfl := Host.Outcome.next.inj h
    exact .fault _ _
  · next hi =>
    split at h
    · next b q hq =>
      obtain rfl := Host.Outcome.next.inj h
      exact .readByte b q (by simpa using hi) hq
    · obtain rfl := Host.Outcome.next.inj h
      exact .answer _ _ _ rfl
    · cases h

theorem execReadLine_next {m : Byte} (h : execReadLine m s = .next t) : CommandStep s (.readLine m) t := by
  have first (hw : readLineL1 s = .next t) : CommandStep s (.readLine m) t := by
    unfold readLineL1 at hw
    split at hw
    · obtain rfl := Host.Outcome.next.inj hw
      exact .fault _ _
    · next hi =>
      split at hw <;> obtain rfl := Host.Outcome.next.inj hw
      · exact .answer _ _ _ rfl
      · next hc => exact .readLineStart m (by simpa using hi) hc
  unfold execReadLine at h
  split at h
  · next hu =>
    obtain ⟨hc, rfl⟩ | ⟨b, q, hq, ⟨-, rfl⟩ | ⟨hm, rfl⟩⟩ := readLineL2_next h
    · exact .readLineEnd m hu hc
    · exact .fault _ _
    · exact .readLineByte m b q hu hq hm
  all_goals exact first h

/-- A micro-step of a command that answers a next state is one of the steps listed. -/
theorem exec_next {i : Instr} (h : exec i s = .next t) : CommandStep s i t := by
  cases i with
  | cbInit d => exact execCbInit_next h
  | push d b =>
    obtain ⟨q, hq, rfl⟩ | ⟨-, rfl⟩ := execPush_next h
    · exact .push d b q hq
    · exact .answer _ _ _ rfl
  | pop d =>
    obtain ⟨b, q, hq, rfl⟩ | ⟨-, rfl⟩ := execPop_next h
    · exact .pop d b q hq
    · exact .answer _ _ _ rfl
  | len d => cases h; exact .answer _ _ _ rfl
  | isFull d => cases h; exact .answer _ _ _ rfl
  | isEmpty d => cases h; exact .answer _ _ _ rfl
  | setEvent d en => cases h; exact .setEvent d en
  | initTransport cfg => exact execInitialize_next h
  | writeByte b => exact execWriteByte_next h
  | writeLine n => exact execWriteLine_next h
  | readByte => exact execReadByte_next h
  | readLine m => exact execReadLine_next h
  | gieClr => cases h; exact .gieClr
  | gieSet => cases h; exact .gieSet
  | payload b => cases h; exact .fault _ _

/-- NORMAL takes a micro-step of the command at `pc`, or raises F_ILLEGAL. -/
theorem normalStep_next (h : normalStep s = .next t) :
    (∃ i, fetch s = .ok i ∧ CommandStep s i t) ∨ t = raiseFault .illegal s := by
  unfold normalStep at h
  split at h
  · next i hi => exact .inl ⟨i, hi, exec_next h⟩
  · exact .inr (Host.Outcome.next.inj h).symm

/-- NEXT of WRITE_LINE, field by field: either end writes `pc`, `ustep` and the responses at most. -/
theorem writeLineNext_eq (total len : Nat) (s : State) :
    writeLineNext total len s = { s with
      pc := if s.wlIdx = total then s.pc + len else s.pc
      ustep := if s.wlIdx = total then .idle else .w1
      resp := if s.wlIdx = total then s.resp ++ [respWord .ok (countValue s.wlEnq)] else s.resp } := by
  unfold writeLineNext
  split <;> rfl

end

/-! ## State: the frame of the commands, the handlers and the line (spec/10_state.md R34) -/

/-- Settles O57: none of the steps a command can take writes these fields. -/
theorem commandsLeaveTheLineSideAlone : Obligations.CommandsLeaveTheLineSideAlone := by
  unfold Obligations.CommandsLeaveTheLineSideAlone
  intro i s t h
  cases exec_next h <;> simp [writeLineNext_eq]

/-- A successful push moves neither the read cursor nor the callback bit. -/
theorem push_frame {cap : Nat} {b : Byte} {q q' : Buffer} (h : q.push cap b = .ok q') :
    q'.rc = q.rc ∧ q'.evEn = q.evEn := by
  obtain ⟨-, -, rfl⟩ := push_ok_iff.mp h
  exact ⟨rfl, rfl⟩

/-- A successful pop changes no cell, nor the write cursor, nor the callback bit. -/
theorem pop_frame {cap : Nat} {b : Byte} {q q' : Buffer} (h : q.pop cap = .ok b q') :
    q'.storage = q.storage ∧ q'.wc = q.wc ∧ q'.evEn = q.evEn := by
  obtain ⟨-, -, -, rfl⟩ := pop_ok_iff.mp h
  exact ⟨rfl, rfl, rfl⟩

/-- Settles O59: agent by agent, from everything the agent's step can do. -/
theorem handlersAndLineFrame : Obligations.HandlersAndLineFrame := by
  unfold Obligations.HandlersAndLineFrame
  refine fun s t => ⟨fun h => ?rxh, fun h => ?txh, fun h => ?wireRx, fun h => ?wireTx⟩
  case rxh =>
    obtain ⟨ht, ⟨hq, -⟩ | ⟨-, hrx, -⟩⟩ := rxh_next h
    · exact ⟨ht, (push_frame hq).1, (push_frame hq).2, fun j hj => push_read_other hq hj⟩
    · exact ⟨ht, by rw [hrx], by rw [hrx], fun j _ => by simp only [cell, resolve_receive, hrx]⟩
  case txh =>
    obtain ⟨-, rfl⟩ | ⟨b, q, hq, -, rfl⟩ := txh_next h
    · exact ⟨rfl, rfl, rfl, rfl⟩
    · exact ⟨rfl, pop_frame hq⟩
  case wireRx =>
    obtain ⟨ht, -⟩ := wireRx_next h
    rw [ht]
  case wireTx => rw [wireTx_next h]

/-! ## State: what no step takes back (spec/10_state.md R19, R23, R30, R31, R33) -/

/-- `t` continues `s`: the run's constants are the same, and what only moves forward has not moved back. -/
structure Continues (s t : State) : Prop where
  params : t.params = s.params
  prog : t.prog = s.prog
  pc : s.pc ≤ t.pc
  init : s.init = true → t.init = true
  rxIntEn : s.rxIntEn = true → t.rxIntEn = true
  resp : s.resp <+: t.resp
  evt : s.evt <+: t.evt
  wireOut : s.wireOut <+: t.wireOut

/-- NEXT of WRITE_LINE takes nothing back: it moves `pc` forward and answers, or neither. -/
theorem Continues.writeLineNext {s s' : State} {total len : Nat} (h : Continues s s') :
    Continues s (writeLineNext total len s') := by
  obtain ⟨hp, hg, hpc, hi, hr, hresp, he, hw⟩ := h
  rw [writeLineNext_eq]
  refine ⟨hp, hg, ?_, hi, hr, ?_, he, hw⟩
  · dsimp only
    split
    · exact Nat.le_add_right_of_le hpc
    · exact hpc
  · dsimp only
    split
    · exact hresp.trans (List.prefix_append _ _)
    · exact hresp

theorem CommandStep.continues {i : Instr} {s t : State} (h : CommandStep s i t) : Continues s t := by
  cases h
  case lineDropped | lineArmed =>
    exact .writeLineNext ⟨rfl, rfl, le_rfl, id, id, List.prefix_rfl, List.prefix_rfl, List.prefix_rfl⟩
  all_goals constructor <;> simp

theorem agentStep_continues {a : Agent} {s t : State} (h : agentStep a s = .next t) : Continues s t := by
  cases a with
  | normal =>
    obtain ⟨i, -, hc⟩ | rfl := normalStep_next h
    · exact hc.continues
    · constructor <;> simp
  | rxh =>
    obtain ⟨ht, ⟨-, he⟩ | ⟨-, -, he⟩⟩ := rxh_next h <;> rw [ht, he] <;> constructor <;> simp
  | txh =>
    obtain ⟨-, rfl⟩ | ⟨b, q, -, -, rfl⟩ := txh_next h <;> constructor <;> simp
  | wireRx =>
    rw [(wireRx_next h).1]
    constructor <;> simp
  | wireTx =>
    rw [wireTx_next h]
    constructor <;> simp

/-- A step of the machine is a step of an enabled agent from the same state, but for the turns and the round. -/
theorem step_next_turns {s t : State} (h : step s = .next t) :
    ∃ a turns round, (∃ s1, nextTurn s = some (a, s1)) ∧ enabled a s = true ∧
      agentStep a { s with turns := turns, round := round } = .next t := by
  obtain ⟨a, s1, hn, he, hs, ha⟩ := step_next h
  exact ⟨a, s1.turns, s1.round, ⟨s1, hn⟩, he, hs ▸ ha⟩

theorem step_continues {s t : State} (h : step s = .next t) : Continues s t := by
  obtain ⟨a, turns, round, -, -, ha⟩ := step_next_turns h
  obtain ⟨hp, hg, hpc, hi, hr, hresp, he, hw⟩ := agentStep_continues ha
  exact ⟨hp, hg, hpc, hi, hr, hresp, he, hw⟩

/-- Settles O20: every step continues the state it starts from. -/
theorem stepNeverTakesBack : Obligations.StepNeverTakesBack := by
  unfold Obligations.StepNeverTakesBack
  intro s t h
  obtain ⟨hp, hg, hpc, hi, hr, hresp, he, hw⟩ := step_continues h
  exact ⟨hp, hg, hpc, hi, hr, hresp, he, hw⟩

/-! ## State: what a step can do to a buffer (spec/10_state.md R25) -/

/-- What a step other than a reset of the buffer can do to it: one push, one pop, or the callback bit at most. -/
inductive BufferMove (cap : Nat) (q : Buffer) : Buffer → Prop where
  | keep (en : Bool) : BufferMove cap q { q with evEn := en }
  | push (b : Byte) (q' : Buffer) (h : q.push cap b = .ok q') : BufferMove cap q q'
  | pop (b : Byte) (q' : Buffer) (h : q.pop cap = .ok b q') : BufferMove cap q q'

/-- The commands that reset a buffer (spec/40_ring_buffer.md R82, spec/41_transport.md R102). -/
def Resets (i : Instr) (d : Direction) : Prop := i = .cbInit d ∨ ∃ cfg, i = .initTransport cfg

/-- Writing a moved buffer back moves each buffer, the other one trivially. -/
theorem bufferMove_setBuffer {cap : Nat} {d : Direction} {q : Buffer} {s : State}
    (h : BufferMove cap (resolve d s) q) (d' : Direction) :
    BufferMove cap (resolve d' s) (resolve d' (setBuffer d q s)) := by
  by_cases hd : d' = d
  · subst hd
    rwa [resolve_setBuffer]
  · rw [resolve_setBuffer_other hd]
    exact .keep _

/-- Moving the Receive buffer and leaving Transmit. -/
theorem bufferMove_of_rx {cap : Nat} {s t : State} (h : BufferMove cap s.rx t.rx) (htx : t.tx = s.tx) {d : Direction} :
    BufferMove cap (resolve d s) (resolve d t) := by
  cases d with
  | receive => exact h
  | transmit =>
    rw [resolve_transmit, resolve_transmit, htx]
    exact .keep _

/-- Moving the Transmit buffer and leaving Receive. -/
theorem bufferMove_of_tx {cap : Nat} {s t : State} (h : BufferMove cap s.tx t.tx) (hrx : t.rx = s.rx) {d : Direction} :
    BufferMove cap (resolve d s) (resolve d t) := by
  cases d with
  | receive =>
    rw [resolve_receive, resolve_receive, hrx]
    exact .keep _
  | transmit => exact h

/-- A command moves each buffer, or is one that resets it. -/
theorem CommandStep.buffer {i : Instr} {s t : State} (h : CommandStep s i t) (d : Direction) :
    BufferMove s.params.capacity (resolve d s) (resolve d t) ∨
    (Resets i d ∧ ∃ en, resolve d t = { (resolve d s).clear with evEn := en }) := by
  have same (hrx : t.rx = s.rx) (htx : t.tx = s.tx) : BufferMove s.params.capacity (resolve d s) (resolve d t) :=
    bufferMove_of_rx (hrx ▸ .keep _) htx
  cases h
  case cbInit d' =>
    by_cases hd : d = d'
    · subst hd
      exact .inr ⟨.inl rfl, false, by simp; rfl⟩
    · rw [resolve_finish, resolve_setBuffer_other hd]
      exact .inl (.keep _)
  case setUp cfg _ =>
    refine .inr ⟨.inr ⟨cfg, rfl⟩, ?_⟩
    cases d
    · exact ⟨cfg.rxCallback, rfl⟩
    · exact ⟨cfg.txCallback, rfl⟩
  all_goals left
  case push d' b q hq => simpa using bufferMove_setBuffer (.push b q hq) d
  case pop d' b q hq => simpa using bufferMove_setBuffer (.pop b q hq) d
  case setEvent d' en => simpa using bufferMove_setBuffer (.keep en) d
  case byteEnqueued b q hi htx hq => exact bufferMove_of_tx (.push b q hq) (by rfl)
  case lineEnqueued n bs k e b q hl hat hk hq => exact bufferMove_of_tx (.push b q hq) (by rfl)
  case readByte b q hi hq => exact bufferMove_of_rx (.pop b q hq) (by rfl)
  case readLineByte m b q hu hq hm => exact bufferMove_of_rx (.pop b q hq) (by rfl)
  all_goals exact same (by simp [writeLineNext_eq]) (by simp [writeLineNext_eq])

/-- An agent's step moves each buffer, or is NORMAL's and resets it. -/
theorem agentStep_buffer {a : Agent} {s t : State} (h : agentStep a s = .next t) (d : Direction) :
    BufferMove s.params.capacity (resolve d s) (resolve d t) ∨
    (a = .normal ∧ (∃ i, fetch s = .ok i ∧ Resets i d) ∧
      ∃ en, resolve d t = { (resolve d s).clear with evEn := en }) := by
  cases a with
  | normal =>
    obtain ⟨i, hi, hc⟩ | rfl := normalStep_next h
    · obtain hm | ⟨hr, hen⟩ := hc.buffer d
      · exact .inl hm
      · exact .inr ⟨rfl, ⟨i, hi, hr⟩, hen⟩
    · rw [resolve_raiseFault]
      exact .inl (.keep _)
  | rxh =>
    obtain ⟨ht, ⟨hq, -⟩ | ⟨-, hrx, -⟩⟩ := rxh_next h
    · exact .inl (bufferMove_of_rx (.push _ _ hq) (by rw [ht]))
    · exact .inl (bufferMove_of_rx (hrx ▸ .keep _) (by rw [ht]))
  | txh =>
    obtain ⟨-, rfl⟩ | ⟨b, q, hq, -, rfl⟩ := txh_next h
    · exact .inl (bufferMove_of_tx (.keep _) (by rfl))
    · exact .inl (bufferMove_of_tx (.pop b q hq) (by rfl))
  | wireRx =>
    rw [(wireRx_next h).1]
    exact .inl (bufferMove_of_rx (.keep _) (by rfl))
  | wireTx =>
    rw [wireTx_next h]
    exact .inl (bufferMove_of_rx (.keep _) (by rfl))

@[simp] theorem resolve_turns (d : Direction) (s : State) (turns : List Agent) (round : Nat) :
    resolve d { s with turns := turns, round := round } = resolve d s := by
  cases d <;> rfl

/-- A step moves each buffer, or is NORMAL's at a command that resets it. -/
theorem step_buffer {s t : State} (h : step s = .next t) (d : Direction) :
    BufferMove s.params.capacity (resolve d s) (resolve d t) ∨
    ((∃ s1, nextTurn s = some (.normal, s1)) ∧ (∃ i, fetch s = .ok i ∧ Resets i d) ∧
      ∃ en, resolve d t = { (resolve d s).clear with evEn := en }) := by
  obtain ⟨a, turns, round, hn, -, ha⟩ := step_next_turns h
  have hb := agentStep_buffer ha d
  rw [resolve_turns] at hb
  obtain hm | ⟨rfl, hf, hen⟩ := hb
  · exact .inl hm
  · exact .inr ⟨hn, hf, hen⟩

/-- What a move does to the contents. -/
theorem BufferMove.contents {cap : Nat} {q q' : Buffer} (hq : Buffer.Inv cap q) (h : BufferMove cap q q') :
    q'.contents cap = q.contents cap ∨ (∃ b, q'.contents cap = q.contents cap ++ [b]) ∨
    ∃ b, q.contents cap = b :: q'.contents cap := by
  cases h with
  | keep en => exact .inl rfl
  | push b _ hp => exact .inr (.inl ⟨b, push_contents hq hp⟩)
  | pop b _ hp => exact .inr (.inr ⟨b, pop_contents hp⟩)

theorem BufferMove.inv {cap : Nat} {q q' : Buffer} (hq : Buffer.Inv cap q) (h : BufferMove cap q q') :
    Buffer.Inv cap q' := by
  cases h with
  | keep en => exact (evEn_inv en).mpr hq
  | push b _ hp => exact push_inv hq hp
  | pop b _ hp => exact pop_inv hq hp

theorem State.BuffersInv.buffer {s : State} (h : s.BuffersInv) (d : Direction) :
    Buffer.Inv s.params.capacity (resolve d s) := by
  obtain ⟨-, hrx, htx⟩ := h
  cases d
  · exact hrx
  · exact htx

/-- Settles O54: the step moves the buffer, which appends or removes at most one byte, or resets it. -/
theorem contentsAreFifo : Obligations.ContentsAreFifo := by
  unfold Obligations.ContentsAreFifo
  intro s t d hs h
  obtain ⟨hbuf, -, -, -⟩ := hs
  simp only [contents, (step_continues h).params]
  obtain hm | ⟨hn, ⟨i, hf, hr⟩, en, ht⟩ := step_buffer h d
  · obtain hk | hp | hp := hm.contents (hbuf.buffer d)
    · exact .inl hk
    · exact .inr (.inl hp)
    · exact .inr (.inr (.inl hp))
  · refine .inr (.inr (.inr ⟨?_, hn, ?_⟩))
    · rw [ht]
      exact contents_of_count_zero rfl
    · obtain rfl | ⟨cfg, rfl⟩ := hr
      · exact .inl hf
      · exact .inr ⟨cfg, hf⟩

/-! ## State: the invariant (spec/10_state.md R24, R32) -/

theorem step_keeps_buffers {s t : State} (hs : s.BuffersInv) (h : step s = .next t) : t.BuffersInv := by
  have hp := (step_continues h).params
  have each (d : Direction) : Buffer.Inv t.params.capacity (resolve d t) := by
    rw [hp]
    obtain hm | ⟨-, -, en, ht⟩ := step_buffer h d
    · exact hm.inv (hs.buffer d)
    · rw [ht]
      exact (evEn_inv en).mpr (clear_inv (hs.buffer d))
  exact ⟨hp ▸ hs.1, each .receive, each .transmit⟩

/-- A command can be fetched inside the stream only. -/
theorem fetch_lt {s : State} {i : Instr} (h : fetch s = .ok i) : s.pc < s.prog.length := by
  unfold fetch at h
  split at h
  · cases h
  · next w hw => exact (List.getElem?_eq_some_iff.mp hw).1

/-- The payload of a line lies inside the stream. -/
theorem linePayload_lt {n : Byte} {s : State} (h : linePayload n s ≠ none) (hpc : s.pc < s.prog.length) :
    s.pc + (1 + n.toNat) ≤ s.prog.length := by
  obtain ⟨bs, hbs⟩ := Option.ne_none_iff_exists'.mp h
  have := (payloadBytes_length hbs).2
  rw [List.length_drop] at this
  omega

theorem writeLineNext_pc_le {total len : Nat} {s : State} (h : s.pc + len ≤ s.prog.length) :
    (writeLineNext total len s).pc ≤ (writeLineNext total len s).prog.length := by
  rw [writeLineNext_eq]
  dsimp only
  split
  · exact h
  · omega

/-- No command moves `pc` past the end of the stream. -/
theorem CommandStep.pc_le {i : Instr} {s t : State} (h : CommandStep s i t) (hpc : s.pc < s.prog.length) :
    t.pc ≤ t.prog.length := by
  cases h
  case answerLine n hl => exact linePayload_lt hl hpc
  case lineDropped n bs k e hl hat hk => exact writeLineNext_pc_le (linePayload_lt (s := s) (by simp [hl]) hpc)
  case lineArmed n bs hl hu => exact writeLineNext_pc_le (linePayload_lt (s := s) (by simp [hl]) hpc)
  all_goals (simp; omega)

theorem agentStep_pc_le {a : Agent} {s t : State} (hs : s.pc ≤ s.prog.length) (h : agentStep a s = .next t) :
    t.pc ≤ t.prog.length := by
  cases a with
  | normal =>
    obtain ⟨i, hf, hc⟩ | rfl := normalStep_next h
    · exact hc.pc_le (fetch_lt hf)
    · exact hs
  | rxh =>
    rw [(rxh_next h).1]
    exact hs
  | txh => obtain ⟨-, rfl⟩ | ⟨b, q, -, -, rfl⟩ := txh_next h <;> exact hs
  | wireRx =>
    rw [(wireRx_next h).1]
    exact hs
  | wireTx =>
    rw [wireTx_next h]
    exact hs

/-! ### The progress registers -/

theorem lineProgress_iff {n : Byte} {pushed : Nat} {s : State} : lineProgress n pushed s = true ↔
    ∃ bs, linePayload n s = some bs ∧ s.wlIdx < (lineBytes s bs).length ∧ s.wlEnq ≤ s.wlIdx + pushed ∧
      pushed ≤ s.wlEnq := by
  unfold lineProgress
  split
  · next bs hl => simp [hl, and_assoc]
  · next hl => simp [hl]

theorem progressOk_of_idle {s : State} (hu : s.ustep = .idle) : progressOk s = true := by
  unfold progressOk
  rw [hu]

theorem progressOk_w1_iff {s : State} (hu : s.ustep = .w1) : progressOk s = true ↔
    ∃ n, fetch s = .ok (.writeLine n) ∧ lineProgress n 0 s = true ∧ s.txen = true := by
  unfold progressOk
  rw [hu]
  dsimp only
  split
  · next n hf => simp [hf]
  · next hf =>
    simp only [Bool.false_eq_true, false_iff, not_exists, not_and]
    exact fun n hn => absurd hn (hf n)

theorem progressOk_w2_iff {s : State} (hu : s.ustep = .w2) : progressOk s = true ↔
    s.txen = true ∧ ((∃ b, fetch s = .ok (.writeByte b)) ∨
      ∃ n, fetch s = .ok (.writeLine n) ∧ lineProgress n 1 s = true) := by
  unfold progressOk
  rw [hu]
  dsimp only
  split
  · next b hf => simp [hf]
  · next n hf => simp [hf, and_comm]
  · next hb hn =>
    simp only [Bool.false_eq_true, false_iff, not_and, not_or, not_exists]
    exact fun _ => ⟨hb, fun n hf => absurd hf (hn n)⟩

theorem progressOk_l2_iff {s : State} (hu : s.ustep = .l2) : progressOk s = true ↔
    ∃ m, fetch s = .ok (.readLine m) ∧ s.init = true ∧
      (s.rlEmitted = 0 ∧ 0 < s.rx.count ∨ s.rlEmitted ≠ 0 ∧ s.rlEmitted + 1 ≤ m.toNat) := by
  unfold progressOk
  rw [hu]
  dsimp only
  split
  · next m hf => by_cases h0 : s.rlEmitted = 0 <;> simp [hf, h0]
  · next hf =>
    simp only [Bool.false_eq_true, false_iff, not_exists, not_and]
    exact fun m hm => absurd hm (hf m)

/-- More received bytes do not disturb a command in progress. -/
theorem progressOk_of_rx_count_le {s : State} {q : Buffer} (hc : s.rx.count ≤ q.count) (h : progressOk s = true) :
    progressOk { s with rx := q } = true := by
  cases hu : s.ustep with
  | idle => exact progressOk_of_idle rfl
  | w1 => exact (progressOk_w1_iff rfl).mpr ((progressOk_w1_iff hu).mp h)
  | w2 => exact (progressOk_w2_iff rfl).mpr ((progressOk_w2_iff hu).mp h)
  | l2 =>
    obtain ⟨m, hf, hi, hr⟩ := (progressOk_l2_iff hu).mp h
    exact (progressOk_l2_iff rfl).mpr ⟨m, hf, hi, hr.imp_left (fun ⟨h0, hlt⟩ => ⟨h0, hlt.trans_le hc⟩)⟩

/-- Where a W1 works no more bytes are enqueued than attempted, and the transmitter is on. -/
theorem LineAt.progress {s : State} {k e : Nat} (hat : LineAt s k e) (h : progressOk s = true) :
    e ≤ k ∧ s.txen = true := by
  obtain ⟨-, htx, rfl, rfl⟩ | ⟨hu, rfl, rfl⟩ := hat
  · exact ⟨le_rfl, htx⟩
  · obtain ⟨n, -, hl, htx⟩ := (progressOk_w1_iff hu).mp h
    obtain ⟨bs, -, -, he, -⟩ := lineProgress_iff.mp hl
    exact ⟨he, htx⟩

/-- NEXT of WRITE_LINE after the byte before `wl_idx` has been attempted: the line has ended, or one more byte exists. -/
theorem writeLineNext_progress {n : Byte} {bs : List Byte} {s : State} (len : Nat)
    (hf : fetch s = .ok (.writeLine n)) (hl : linePayload n s = some bs) (hk : s.wlIdx ≤ (lineBytes s bs).length)
    (he : s.wlEnq ≤ s.wlIdx) (htx : s.txen = true) :
    progressOk (writeLineNext (lineBytes s bs).length len s) = true := by
  unfold writeLineNext
  split
  · exact progressOk_of_idle rfl
  · next hne =>
    exact (progressOk_w1_iff rfl).mpr ⟨n, hf, lineProgress_iff.mpr ⟨bs, hl, hk.lt_of_ne hne, he, Nat.zero_le _⟩, htx⟩

/-- In the second micro-step of a WRITE_LINE one byte at least is enqueued, and the transmitter is on. -/
theorem progressOk_w2_line {n : Byte} {s : State} (hf : fetch s = .ok (.writeLine n)) (hu : s.ustep = .w2)
    (h : progressOk s = true) : s.txen = true ∧ lineProgress n 1 s = true := by
  obtain ⟨htx, ⟨b, hb⟩ | ⟨n', hn, hl⟩⟩ := (progressOk_w2_iff hu).mp h
  · cases hf.symm.trans hb
  · cases hf.symm.trans hn
    exact ⟨htx, hl⟩

/-- The command at `pc` leaves progress registers that fit it. -/
theorem CommandStep.progress {i : Instr} {s t : State} (h : CommandStep s i t) (hf : fetch s = .ok i)
    (hs : progressOk s = true) : progressOk t = true := by
  cases h
  case fault => exact hs
  case byteEnqueued b q hi htx hq => exact (progressOk_w2_iff rfl).mpr ⟨htx, .inl ⟨b, hf⟩⟩
  case lineEnqueued n bs k e b q hl hat hk hq =>
    obtain ⟨hek, htx⟩ := hat.progress hs
    exact (progressOk_w2_iff rfl).mpr ⟨htx, .inr ⟨n, hf, lineProgress_iff.mpr
      ⟨bs, hl, hk, Nat.succ_le_succ hek, Nat.le_add_left 1 e⟩⟩⟩
  case lineDropped n bs k e hl hat hk =>
    obtain ⟨hek, htx⟩ := hat.progress hs
    exact writeLineNext_progress (s := { s with wlIdx := k + 1, wlEnq := e }) _ hf hl hk (Nat.le_succ_of_le hek) htx
  case lineArmed n bs hl hu =>
    obtain ⟨htx, hp⟩ := progressOk_w2_line hf hu hs
    obtain ⟨bs', hl', hk, he, -⟩ := lineProgress_iff.mp hp
    cases hl.symm.trans hl'
    exact writeLineNext_progress (s := { s with txIntEn := true, wlIdx := s.wlIdx + 1 }) _ hf hl hk he htx
  case readLineStart m hi hc =>
    exact (progressOk_l2_iff rfl).mpr ⟨m, hf, hi, .inl ⟨rfl, Nat.pos_of_ne_zero hc⟩⟩
  case readLineByte m b q hu hq hm =>
    obtain ⟨-, -, hi, -⟩ := (progressOk_l2_iff hu).mp hs
    refine (progressOk_l2_iff ?_).mpr ⟨m, hf, hi, .inr ⟨Nat.succ_ne_zero s.rlEmitted, hm⟩⟩
    exact hu
  all_goals exact progressOk_of_idle rfl

theorem push_count_le {cap : Nat} {b : Byte} {q q' : Buffer} (h : q.push cap b = .ok q') : q.count ≤ q'.count := by
  obtain ⟨-, -, rfl⟩ := push_ok_iff.mp h
  exact Nat.le_succ _

theorem agentStep_progress {a : Agent} {s t : State} (hs : progressOk s = true) (h : agentStep a s = .next t) :
    progressOk t = true := by
  cases a with
  | normal =>
    obtain ⟨i, hf, hc⟩ | rfl := normalStep_next h
    · exact hc.progress hf hs
    · exact hs
  | rxh =>
    obtain ⟨ht, hrx⟩ := rxh_next h
    have hc : s.rx.count ≤ t.rx.count := by
      obtain ⟨hq, -⟩ | ⟨-, hrx, -⟩ := hrx
      · exact push_count_le hq
      · rw [hrx]
    rw [ht]
    exact progressOk_of_rx_count_le hc hs
  | txh => obtain ⟨-, rfl⟩ | ⟨b, q, -, -, rfl⟩ := txh_next h <;> exact hs
  | wireRx =>
    rw [(wireRx_next h).1]
    exact hs
  | wireTx =>
    rw [wireTx_next h]
    exact hs

/-! ### The enables and the status bits -/

theorem CommandStep.glue {i : Instr} {s t : State} (h : CommandStep s i t) (hf : fetch s = .ok i)
    (hp : progressOk s = true) (hs : s.GlueInv) : t.GlueInv := by
  obtain ⟨hri, hoff, htie, hdre, hrxc⟩ := hs
  cases h
  case setUp cfg hi =>
    obtain ⟨hrx, htx⟩ := hoff hi
    simp_all [State.GlueInv]
  case byteArmed b hu =>
    obtain ⟨htx, -⟩ := (progressOk_w2_iff hu).mp hp
    exact ⟨hri, hoff, fun _ => htx, hdre, hrxc⟩
  case lineDropped =>
    rw [writeLineNext_eq]
    exact ⟨hri, hoff, htie, hdre, hrxc⟩
  case lineArmed n bs hl hu =>
    obtain ⟨htx, -⟩ := (progressOk_w2_iff hu).mp hp
    rw [writeLineNext_eq]
    exact ⟨hri, hoff, fun _ => htx, hdre, hrxc⟩
  all_goals simpa [State.GlueInv] using ⟨hri, hoff, htie, hdre, hrxc⟩

theorem agentStep_glue {a : Agent} {s t : State} (he : enabled a s = true) (hp : progressOk s = true) (hs : s.GlueInv)
    (h : agentStep a s = .next t) : t.GlueInv := by
  cases a with
  | normal =>
    obtain ⟨i, hf, hc⟩ | rfl := normalStep_next h
    · exact hc.glue hf hp hs
    · exact hs
  | rxh =>
    obtain ⟨hri, hoff, htie, hdre, -⟩ := hs
    rw [(rxh_next h).1]
    exact ⟨hri, hoff, htie, hdre, by simp⟩
  | txh =>
    obtain ⟨hri, hoff, htie, hdre, hrxc⟩ := hs
    obtain ⟨-, rfl⟩ | ⟨b, q, -, -, rfl⟩ := txh_next h
    · exact ⟨hri, hoff, by simp, hdre, hrxc⟩
    · have htx : s.txen = true := htie (by simp_all [enabled, irqTx])
      exact ⟨hri, hoff, fun _ => htx, fun _ => htx, hrxc⟩
  | wireRx =>
    obtain ⟨hri, hoff, htie, hdre, -⟩ := hs
    have hrx : s.rxen = true := by simp_all [enabled]
    rw [(wireRx_next h).1]
    exact ⟨hri, hoff, htie, hdre, fun _ => hrx⟩
  | wireTx =>
    obtain ⟨hri, hoff, htie, -, hrxc⟩ := hs
    rw [wireTx_next h]
    exact ⟨hri, hoff, htie, by simp, hrxc⟩

/-- Settles O15: the buffers, the enables, `pc` and the progress registers, part by part. -/
theorem stepKeepsInvariant : Obligations.StepKeepsInvariant := by
  unfold Obligations.StepKeepsInvariant
  intro s t hs h
  obtain ⟨hbuf, hglue, hpc, hprog⟩ := hs
  obtain ⟨a, turns, round, -, he, ha⟩ := step_next_turns h
  rw [← enabled_turns a s turns round] at he
  exact ⟨step_keeps_buffers hbuf h, agentStep_glue he hprog hglue ha, agentStep_pc_le (by exact hpc) ha,
    agentStep_progress (by exact hprog) ha⟩

/-! ### Every reachable state -/

theorem launch_inv {p : Params} (prog : List Word) (arrivals : List Byte) (turns : List Agent) (h : p.wf = true) :
    (State.launch p prog arrivals turns).Inv := by
  have hcap : 1 ≤ p.capacity := by
    simp only [Params.wf, Bool.and_eq_true, decide_eq_true_eq] at h
    exact h.1.1
  refine ⟨⟨h, reset_buffer_inv hcap, reset_buffer_inv hcap⟩, ?_, Nat.zero_le _, rfl⟩
  simp [State.GlueInv, State.launch]

/-- Settles O14: reset is a launch with the default parameters. -/
theorem invariantHoldsAtLaunch : Obligations.InvariantHoldsAtLaunch := by
  unfold Obligations.InvariantHoldsAtLaunch
  exact ⟨fun p prog arrivals turns h => launch_inv prog arrivals turns h, launch_inv [] [] [] (by decide)⟩

theorem Reachable.inv {s : State} (h : Reachable s) : s.Inv := by
  induction h with
  | launch p prog arrivals turns hp => exact launch_inv prog arrivals turns hp
  | step s t _ hst ih => exact stepKeepsInvariant s t ih hst

/-- INV4 as R24 writes it, with the difference of the cursors. -/
theorem Buffer.Inv.cursor_difference {cap : Nat} {q : Buffer} (h : Buffer.Inv cap q) :
    ((q.wc : Int) - q.rc) % cap = q.count % cap := by
  obtain ⟨-, -, -, -, hcur, -, -⟩ := h
  rw [← hcur]
  push_cast
  rw [Int.emod_sub_emod, add_sub_cancel_left]

/-- INV5: where the cursors meet, the buffer is empty or full. -/
theorem Buffer.Inv.empty_or_full {cap : Nat} {q : Buffer} (h : Buffer.Inv cap q) (hm : q.wc = q.rc) :
    q.count = 0 ∨ q.full = true := by
  cases hf : q.full with
  | true => exact .inr rfl
  | false =>
    have hlt := h.count_lt hf
    obtain ⟨-, -, -, hr, hcur, -, -⟩ := h
    have hsame : (q.rc + q.count) % cap = (q.rc + 0) % cap := by rw [hcur, hm, Nat.add_zero, Nat.mod_eq_of_lt hr]
    exact .inl (window_injective hlt (by omega) hsame)

/-- Settles O16: reachable states meet the invariant, which holds at launch (O14) and at every step (O15). -/
theorem reachableStatesMeetBufferInvariants : Obligations.ReachableStatesMeetBufferInvariants := by
  unfold Obligations.ReachableStatesMeetBufferInvariants
  intro s h d
  obtain ⟨hbuf, -, -, -⟩ := h.inv
  have hq := hbuf.buffer d
  have h4 := hq.cursor_difference
  have h5 := hq.empty_or_full
  obtain ⟨hc, hfull, hw, hr, -, -, -⟩ := hq
  exact ⟨hc, by rw [hfull, decide_eq_true_iff], ⟨hw, hr⟩, h4, h5⟩

/-! ### Widths (spec/00_scope.md R1, spec/10_state.md R11, R32) -/

theorem le_two_pow_cursorWidth (p : Params) : p.capacity ≤ 2 ^ p.cursorWidth :=
  (Nat.le_pow_clog Nat.one_lt_two _).trans (Nat.pow_le_pow_right Nat.two_pos (le_max_right _ _))

theorem lt_two_pow_countWidth (p : Params) : p.capacity < 2 ^ p.countWidth :=
  Nat.le_pow_clog Nat.one_lt_two _

theorem lineBytes_length_le {n : Byte} {s : State} {bs : List Byte} (hp : s.params.wf = true)
    (h : linePayload n s = some bs) : (lineBytes s bs).length ≤ 257 := by
  have hn := linePayload_length h
  have ht : s.params.lineTerm.length ≤ 2 := by
    simp only [Params.wf, Bool.and_eq_true, decide_eq_true_eq] at hp
    exact hp.2
  rw [lineBytes, List.length_append]
  omega

theorem lineProgress_le {n : Byte} {pushed : Nat} {s : State} (hp : s.params.wf = true) (hpushed : pushed ≤ 1)
    (h : lineProgress n pushed s = true) : s.wlIdx ≤ 257 ∧ s.wlEnq ≤ 257 := by
  obtain ⟨bs, hl, hk, he, -⟩ := lineProgress_iff.mp h
  have := lineBytes_length_le hp hl
  omega

/-- Between the micro-steps of a WRITE_LINE its progress registers fit the line. -/
theorem lineProgress_of_progressOk {n : Byte} {s : State} (hf : fetch s = .ok (.writeLine n)) (hu : s.ustep ≠ .idle)
    (h : progressOk s = true) : ∃ pushed, pushed ≤ 1 ∧ lineProgress n pushed s = true := by
  cases hu' : s.ustep with
  | idle => exact absurd hu' hu
  | w1 =>
    obtain ⟨n', hn, hl, -⟩ := (progressOk_w1_iff hu').mp h
    cases hf.symm.trans hn
    exact ⟨0, Nat.zero_le _, hl⟩
  | w2 => exact ⟨1, le_rfl, (progressOk_w2_line hf hu' h).2⟩
  | l2 =>
    obtain ⟨m, hm, -⟩ := (progressOk_l2_iff hu').mp h
    cases hf.symm.trans hm

theorem rlEmitted_le {s : State} (hu : s.ustep = .l2) (h : progressOk s = true) : s.rlEmitted ≤ 254 := by
  obtain ⟨m, -, -, hr⟩ := (progressOk_l2_iff hu).mp h
  have := m.isLt
  omega

/-- Settles O17: cursors and counts by R24, the progress registers by their fit to the command at `pc`. -/
theorem registersFitTheirWidths : Obligations.RegistersFitTheirWidths := by
  unfold Obligations.RegistersFitTheirWidths
  intro s hs
  obtain ⟨hbuf, -, -, hprog⟩ := hs
  refine ⟨fun d => ?_, fun n hf hu => ?_, fun hu => rlEmitted_le hu hprog⟩
  · obtain ⟨hc, -, hw, hr, -, -, -⟩ := hbuf.buffer d
    have hcur := le_two_pow_cursorWidth s.params
    exact ⟨hw.trans_le hcur, hr.trans_le hcur, hc.trans_lt (lt_two_pow_countWidth s.params)⟩
  · obtain ⟨pushed, hle, hl⟩ := lineProgress_of_progressOk hf hu hprog
    exact lineProgress_le hbuf.1 hle hl

/-- Settles O13: each register is read off the launch, and `clean_launch` tests every one of them. -/
theorem resetRegisterValues : Obligations.ResetRegisterValues := by
  unfold Obligations.ResetRegisterValues
  refine ⟨fun p prog arrivals turns => ?_, ⟨_, _, _, _, rfl⟩, fun s => ?_⟩
  · refine ⟨fun d i => by cases d <;> rfl, fun d => by cases d <;> exact ⟨rfl, rfl, rfl, rfl, rfl⟩, ?_⟩
    simp [State.launch]
  · obtain ⟨⟩ := s
    simp only [cleanLaunch, State.launch, Bool.and_eq_true, decide_eq_true_eq, Bool.not_eq_true', State.mk.injEq,
      true_and]
    tauto

/-! ## State: the round trip through a buffer (spec/10_state.md R25) -/

theorem execAll_append {is js : List Instr} {s t : State} (h : execAll is s = .next t) :
    execAll (is ++ js) s = execAll js t := by
  induction is generalizing s with
  | nil =>
    cases h
    rfl
  | cons i is ih =>
    unfold execAll at h
    rw [List.cons_append, execAll]
    split at h
    · next u hu => exact ih h
    · cases h
    · cases h

theorem execAll_cons {i : Instr} {is : List Instr} {s t : State} (h : exec i s = .next t) :
    execAll (i :: is) s = execAll is t := by
  rw [execAll, h]

/-- PUSH with room appends its byte and answers OK. -/
theorem exec_push_of_count_lt {d : Direction} (b : Byte) {s : State} (hq : Buffer.Inv s.params.capacity (resolve d s))
    (hc : (resolve d s).count < s.params.capacity) :
    ∃ t, exec (.push d b) s = .next t ∧ t.params = s.params ∧ Buffer.Inv t.params.capacity (resolve d t) ∧
      contents t d = contents s d ++ [b] ∧ t.resp = s.resp ++ [0x0000#16] ∧ t.pc = s.pc + 1 := by
  obtain ⟨q, hp⟩ | hfull := push_total (b := b) hq
  · refine ⟨finish .ok 0#10 1 (setBuffer d q s), ?_, by simp, by simpa using push_inv hq hp, ?_, by simp; rfl, by simp⟩
    · show execPush d b s = _
      rw [execPush, hp]
    · simpa [contents] using push_contents hq hp
  · obtain ⟨-, hf, -⟩ := hq
    rw [push_bufferFull_iff.mp hfull] at hf
    exact absurd (of_decide_eq_true hf.symm) hc.ne

/-- POP of a buffer that holds bytes removes the oldest and answers it. -/
theorem exec_pop_of_contents {d : Direction} {b : Byte} {bs : List Byte} {s : State}
    (hq : Buffer.Inv s.params.capacity (resolve d s)) (hb : contents s d = b :: bs) :
    ∃ t, exec (.pop d) s = .next t ∧ Buffer.Inv t.params.capacity (resolve d t) ∧ contents t d = bs ∧
      t.resp = s.resp ++ [(0x00#8 ++ b : Word)] ∧ t.pc = s.pc + 1 := by
  obtain ⟨b', q, hp⟩ | hempty := pop_total hq
  · obtain ⟨rfl, hbs⟩ := List.cons.inj (hb.symm.trans (pop_contents hp))
    refine ⟨finish .ok (byteValue b) 1 (setBuffer d q s), ?_, by simpa using pop_inv hq hp, ?_, ?_, by simp⟩
    · show execPop d s = _
      rw [execPop, hp]
    · simpa [contents] using hbs.symm
    · rw [finish_resp, respWord_byteValue, setBuffer_resp]
      rfl
  · have := contents_of_count_zero (cap := s.params.capacity) (pop_bufferEmpty_iff.mp hempty)
    cases hb.symm.trans this

theorem execAll_push {d : Direction} (bs : List Byte) {s : State} (hq : Buffer.Inv s.params.capacity (resolve d s))
    (hc : (resolve d s).count + bs.length ≤ s.params.capacity) :
    ∃ t, execAll (bs.map (.push d)) s = .next t ∧ Buffer.Inv t.params.capacity (resolve d t) ∧
      contents t d = contents s d ++ bs ∧ t.resp = s.resp ++ bs.map (fun _ => 0x0000#16) ∧
      t.pc = s.pc + bs.length := by
  induction bs generalizing s with
  | nil => exact ⟨s, rfl, hq, by simp, by simp, rfl⟩
  | cons b bs ih =>
    rw [List.length_cons] at hc
    obtain ⟨u, hu, hup, huq, huc, hur, hupc⟩ := exec_push_of_count_lt b hq (by omega)
    have hcount : (resolve d u).count = (resolve d s).count + 1 := by
      simpa [contents] using congrArg List.length huc
    obtain ⟨t, ht, htq, htc, htr, htpc⟩ := ih huq (by rw [hcount, hup]; omega)
    refine ⟨t, (execAll_cons hu).trans ht, htq, ?_, ?_, ?_⟩
    · simp [htc, huc]
    · simp [htr, hur]
    · rw [htpc, hupc, List.length_cons]
      omega

theorem execAll_pop {d : Direction} (bs : List Byte) {s : State} (hq : Buffer.Inv s.params.capacity (resolve d s))
    (hb : contents s d = bs) :
    ∃ t, execAll (bs.map (fun _ => .pop d)) s = .next t ∧ contents t d = [] ∧
      t.resp = s.resp ++ bs.map (fun b => (0x00#8 ++ b : Word)) ∧ t.pc = s.pc + bs.length := by
  induction bs generalizing s with
  | nil => exact ⟨s, rfl, hb, by simp, rfl⟩
  | cons b bs ih =>
    obtain ⟨u, hu, huq, huc, hur, hupc⟩ := exec_pop_of_contents hq hb
    obtain ⟨t, ht, htc, htr, htpc⟩ := ih huq huc
    refine ⟨t, (execAll_cons hu).trans ht, htc, ?_, ?_⟩
    · simp [htr, hur]
    · rw [htpc, hupc, List.length_cons]
      omega

/-- Settles O32: the pushes leave the bytes as the contents, which the pops then answer in order. -/
theorem pushesThenPopsGiveTheBytesBack : Obligations.PushesThenPopsGiveTheBytesBack := by
  unfold Obligations.PushesThenPopsGiveTheBytesBack
  intro d bs s hs h0 hlen
  have hempty : contents s d = [] := contents_of_count_zero h0
  obtain ⟨u, hu, huq, huc, hur, hupc⟩ := execAll_push bs (hs.buffer d) (by omega)
  obtain ⟨t, ht, htc, htr, htpc⟩ := execAll_pop bs huq (by rw [huc, hempty, List.nil_append])
  refine ⟨t, (execAll_append hu).trans ht, by rw [htr, hur], by omega, ?_⟩
  simpa [contents] using congrArg List.length htc

end Sys2Proof.Machine

namespace Sys2Proof.Machine

/-! ## Memory: who steps next (spec/20_memory.md R46, R47) -/

/-- Settles O11: the conditions of R47, with `irq_rx` and `irq_tx` written out. -/
theorem enableConditions : Obligations.EnableConditions := by
  unfold Obligations.EnableConditions
  refine fun s => ⟨?normal, ?rxh, ?txh, ?wireRx, ?wireTx⟩
  case normal => simp [enabled]
  case rxh => simp [enabled, irqRx, and_assoc]
  case txh => simp [enabled, irqTx, and_assoc]
  case wireRx => simp [enabled]
  case wireTx => simp [enabled]

theorem dueTurns_cons_of_enabled {a : Agent} {s : State} (he : enabled a s = true) (offers : List Agent) :
    dueTurns (a :: offers) s = a :: offers := by
  simp [dueTurns, he]

theorem dueTurns_cons_of_not_enabled {a : Agent} {s : State} (he : enabled a s = false) (offers : List Agent) :
    dueTurns (a :: offers) s = dueTurns offers s := by
  simp [dueTurns, he]

/-- The first turn the state holds is taken when its agent is enabled. -/
theorem nextTurn_of_turns_cons {a : Agent} {rest : List Agent} {s : State} (ht : s.turns = a :: rest)
    (he : enabled a s = true) : nextTurn s = some (a, { s with turns := rest }) := by
  rw [nextTurn, ht, dueTurns_cons_of_enabled he]

theorem step_of_turns_cons {a : Agent} {rest : List Agent} {s : State} (ht : s.turns = a :: rest)
    (he : enabled a s = true) : step s = agentStep a { s with turns := rest } := by
  rw [step, nextTurn_of_turns_cons ht he]

/-- A turn of an agent that is not enabled passes. -/
theorem nextTurn_pass {a : Agent} {s : State} (he : enabled a s = false) :
    nextTurn { s with turns := a :: s.turns } = nextTurn s := by
  simp [nextTurn, dueTurns_cons_of_not_enabled he]

/-- Settles O8: the turn on top of the schedule is its agent's, and passes when that agent is not enabled. -/
theorem anyEnabledAgentMayStep : Obligations.AnyEnabledAgentMayStep := by
  unfold Obligations.AnyEnabledAgentMayStep
  refine ⟨fun s a he => ?_, fun s a he => ?_⟩
  · exact step_of_turns_cons (s := { s with turns := a :: s.turns }) rfl (by simpa using he)
  · rw [step, step, nextTurn_pass he]
    rfl

theorem normalStep_of_fetch {i : Instr} {s : State} (hf : fetch s = .ok i) : normalStep s = exec i s := by
  rw [normalStep, hf]

/-- Settles O7: the turn is NORMAL's (O11), whose step is the fetched command's. -/
theorem stepRunsDecodedInstruction : Obligations.StepRunsDecodedInstruction := by
  unfold Obligations.StepRunsDecodedInstruction
  intro s i rest ht hfault hpc hf
  obtain ⟨hnormal, -⟩ := enableConditions s
  rw [step_of_turns_cons ht (hnormal.mpr ⟨hfault, hpc⟩)]
  exact normalStep_of_fetch hf

/-- Settles O9: a step that answers a next state is an enabled agent's. -/
theorem stepIsOneEnabledAgentsStep : Obligations.StepIsOneEnabledAgentsStep := by
  unfold Obligations.StepIsOneEnabledAgentsStep
  intro s t h
  obtain ⟨a, turns, round, -, he, ha⟩ := step_next_turns h
  exact ⟨a, turns, round, he, ha⟩

/-- While an agent is enabled the schedule finds one: in its turns, as the only one, or in five rounds. -/
theorem nextTurn_ne_none {a : Agent} {s : State} (he : enabled a s = true) : nextTurn s ≠ none := by
  unfold nextTurn
  split
  · exact Option.some_ne_none _
  · split
    · next hnil =>
      have hmem := mem_enabledAgents.mpr he
      rw [hnil] at hmem
      exact absurd hmem List.not_mem_nil
    · exact Option.some_ne_none _
    · obtain ⟨j, hj, hm⟩ := roundTurns_offers a s.round
      exact drawTurn_ne_none (by simpa using he) hm hj

/-- Settles O10: a turn is an enabled agent's, and an enabled agent is enough for one. -/
theorem runIsOverIffNoAgentIsEnabled : Obligations.RunIsOverIffNoAgentIsEnabled := by
  unfold Obligations.RunIsOverIffNoAgentIsEnabled
  intro s
  constructor
  · exact fun hn a => Bool.eq_false_iff.mpr fun he => nextTurn_ne_none he hn
  · intro hnone
    refine Option.eq_none_iff_forall_ne_some.mpr fun ⟨a, s1⟩ hs => ?_
    exact Bool.eq_false_iff.mp (hnone a) (nextTurn_some hs).1

/-! ## Memory: weak fairness (spec/20_memory.md R47; log entry 6) -/

/-- The turns offered by `m` rounds of the free schedule from round `k` on. -/
def roundsFrom : Nat → Nat → List Agent
  | 0, _ => []
  | m + 1, k => roundTurns k ++ roundsFrom m (k + 1)

/-- The turns the schedule offers next: those held in the state, then those of `m` rounds. -/
def offersWithin (m : Nat) (s : State) : List Agent := s.turns ++ roundsFrom m s.round

theorem length_roundsFrom (m k : Nat) :
    (roundsFrom m k).length = ((List.range m).map (fun j => (roundTurns (k + j)).length)).sum := by
  induction m generalizing k with
  | zero => rfl
  | succ m ih =>
    rw [roundsFrom, List.length_append, ih, List.range_succ_eq_map, List.map_cons, List.map_map, List.sum_cons]
    simp only [Function.comp_def, Nat.succ_eq_add_one, Nat.add_zero, Nat.add_assoc, Nat.add_comm 1]

/-- The bound of the statement is the number of turns held and offered by five rounds. -/
theorem length_offersWithin_five (s : State) : (offersWithin 5 s).length = waitBound s := by
  rw [offersWithin, List.length_append, length_roundsFrom, waitBound]

theorem mem_roundsFrom {a : Agent} {m k j : Nat} (hj : j < m) (ha : a ∈ roundTurns (k + j)) : a ∈ roundsFrom m k := by
  induction m generalizing k j with
  | zero => exact absurd hj (Nat.not_lt_zero j)
  | succ m ih =>
    rw [roundsFrom, List.mem_append]
    cases j with
    | zero => exact .inl ha
    | succ j => exact .inr (ih (Nat.lt_of_succ_lt_succ hj) (by rwa [Nat.add_assoc, Nat.add_comm 1]))

/-- Five rounds offer every agent a turn. -/
theorem mem_offersWithin_five (a : Agent) (s : State) : a ∈ offersWithin 5 s := by
  obtain ⟨j, hj, ha⟩ := roundTurns_offers a s.round
  exact List.mem_append_right _ (mem_roundsFrom hj ha)

/-- Taking the first due offer uses up at least that one, and passes over no enabled agent. -/
theorem dueTurns_rest {offers rest : List Agent} {a a' : Agent} {s : State} (h : dueTurns offers s = a' :: rest)
    (he : enabled a s = true) (ha : a ∈ offers) : (a = a' ∨ a ∈ rest) ∧ rest.length < offers.length := by
  have hsplit : offers.takeWhile (fun a => !enabled a s) ++ a' :: rest = offers := by
    rw [← h]
    exact List.takeWhile_append_dropWhile
  have hskip : a ∉ offers.takeWhile (fun a => !enabled a s) := fun hm => by
    have := List.mem_takeWhile_imp hm
    simp [he] at this
  rw [← hsplit, List.mem_append, List.mem_cons] at ha
  refine ⟨ha.resolve_left hskip, ?_⟩
  rw [← hsplit, List.length_append, List.length_cons]
  omega

/-- Where no offer is due the later offers decide. -/
theorem dueTurns_append_of_nil {offers : List Agent} {s : State} (h : dueTurns offers s = []) (more : List Agent) :
    dueTurns (offers ++ more) s = dueTurns more s := by
  unfold dueTurns at h ⊢
  rw [List.dropWhile_append, h]
  rfl

/-- Where an offer is due the later offers stay behind it. -/
theorem dueTurns_append_of_cons {offers rest : List Agent} {a : Agent} {s : State} (h : dueTurns offers s = a :: rest)
    (more : List Agent) : dueTurns (offers ++ more) s = a :: (rest ++ more) := by
  unfold dueTurns at h ⊢
  rw [List.dropWhile_append, h]
  rfl

/-- A draw takes the first due turn of the rounds offered, and leaves the offers after it. -/
theorem drawTurn_dueTurns {a a' : Agent} {n m : Nat} {s s1 : State} (h : drawTurn n s = some (a', s1))
    (he : enabled a s = true) (ha : a ∈ roundsFrom m s.round) :
    ∃ m', dueTurns (roundsFrom m s.round) s = a' :: offersWithin m' s1 := by
  induction n generalizing m s with
  | zero => cases h
  | succ n ih =>
    cases m with
    | zero => cases ha
    | succ m =>
      unfold drawTurn at h
      split at h
      · next hd =>
        obtain ⟨rfl, rfl⟩ := by simpa using h
        exact ⟨m, dueTurns_append_of_cons hd _⟩
      · next hd =>
        have hlater : a ∈ roundsFrom m (s.round + 1) :=
          (List.mem_append.mp ha).resolve_left fun hm => dueTurns_ne_nil hm he hd
        rw [roundsFrom, dueTurns_append_of_nil hd]
        simpa using ih h (by simpa using he) hlater

/-- The turn that is taken is the one agent's that can step, or the first due one of the offers, which leaves the offers
after it. -/
theorem nextTurn_dueTurns {a a' : Agent} {m : Nat} {s s1 : State} (h : nextTurn s = some (a', s1))
    (he : enabled a s = true) (ha : a ∈ offersWithin m s) :
    a = a' ∨ ∃ m', dueTurns (offersWithin m s) s = a' :: offersWithin m' s1 := by
  unfold nextTurn at h
  split at h
  · next hd =>
    obtain ⟨rfl, rfl⟩ := by simpa using h
    exact .inr ⟨m, dueTurns_append_of_cons hd _⟩
  · next hd =>
    split at h
    · cases h
    · next b hb =>
      obtain ⟨rfl, -⟩ := by simpa using h
      exact .inl (List.mem_singleton.mp (hb ▸ mem_enabledAgents.mpr he))
    · have hlater : a ∈ roundsFrom m s.round :=
        (List.mem_append.mp ha).resolve_left fun hm => dueTurns_ne_nil hm he hd
      rw [offersWithin, dueTurns_append_of_nil hd]
      exact .inr (by simpa using drawTurn_dueTurns h (by simpa using he) hlater)

/-- An agent that is offered a turn and is enabled takes the next one, or fewer offers are left and it is among them. -/
theorem nextTurn_offers {a a' : Agent} {m : Nat} {s s1 : State} (h : nextTurn s = some (a', s1))
    (he : enabled a s = true) (ha : a ∈ offersWithin m s) :
    a = a' ∨ ∃ m', a ∈ offersWithin m' s1 ∧ (offersWithin m' s1).length < (offersWithin m s).length := by
  obtain rfl | ⟨m', hd⟩ := nextTurn_dueTurns h he ha
  · exact .inl rfl
  · obtain ⟨rfl | hrest, hlt⟩ := dueTurns_rest hd he ha
    · exact .inl rfl
    · exact .inr ⟨m', hrest, hlt⟩

theorem CommandStep.schedule {i : Instr} {s t : State} (h : CommandStep s i t) :
    t.turns = s.turns ∧ t.round = s.round := by
  cases h <;> simp [writeLineNext_eq]

/-- No agent's step writes the schedule. -/
theorem agentStep_schedule {a : Agent} {s t : State} (h : agentStep a s = .next t) :
    t.turns = s.turns ∧ t.round = s.round := by
  cases a with
  | normal =>
    obtain ⟨i, -, hc⟩ | rfl := normalStep_next h
    · exact hc.schedule
    · exact ⟨rfl, rfl⟩
  | rxh =>
    rw [(rxh_next h).1]
    exact ⟨rfl, rfl⟩
  | txh => obtain ⟨-, rfl⟩ | ⟨b, q, -, -, rfl⟩ := txh_next h <;> exact ⟨rfl, rfl⟩
  | wireRx =>
    rw [(wireRx_next h).1]
    exact ⟨rfl, rfl⟩
  | wireTx =>
    rw [wireTx_next h]
    exact ⟨rfl, rfl⟩

/-- An agent that is offered a turn and stays enabled takes it within as many steps as there are offers. -/
theorem stepped_of_mem_offers {a : Agent} {n m : Nat} {run : Nat → State}
    (hrun : ∀ k, k < n → step (run k) = .next (run (k + 1))) (hen : ∀ k, k < n → enabled a (run k) = true)
    (ha : a ∈ offersWithin m (run 0)) (hn : (offersWithin m (run 0)).length ≤ n) :
    ∃ k s1, k < n ∧ nextTurn (run k) = some (a, s1) := by
  induction n generalizing m run with
  | zero => exact absurd (List.length_pos_of_mem ha) hn.not_gt
  | succ n ih =>
    obtain ⟨a', s1, hturn, -, -, hstep⟩ := step_next (hrun 0 n.succ_pos)
    obtain rfl | ⟨m', ha', hlt⟩ := nextTurn_offers hturn (hen 0 n.succ_pos) ha
    · exact ⟨0, s1, n.succ_pos, hturn⟩
    · have hsame : offersWithin m' (run 1) = offersWithin m' s1 := by
        obtain ⟨hturns, hround⟩ := agentStep_schedule hstep
        rw [offersWithin, offersWithin, hturns, hround]
      obtain ⟨k, s2, hk, hturn'⟩ := ih (m := m') (run := fun k => run (k + 1))
        (fun k hk => hrun (k + 1) (Nat.succ_lt_succ hk)) (fun k hk => hen (k + 1) (Nat.succ_lt_succ hk))
        (hsame ▸ ha') (by rw [hsame]; omega)
      exact ⟨k + 1, s2, Nat.succ_lt_succ hk, hturn'⟩

/-- Settles O12: the turns held and those of five rounds offer every agent one, and each step uses up one at least. -/
theorem weakFairness : Obligations.WeakFairness := by
  unfold Obligations.WeakFairness
  intro a run n hrun hen hn
  exact stepped_of_mem_offers hrun hen (mem_offersWithin_five a (run 0)) (by rwa [length_offersWithin_five])

/-! ## Memory: what an agent and a command leave alone (spec/20_memory.md R41, R53) -/

theorem pop_count_le {cap : Nat} {b : Byte} {q q' : Buffer} (h : q.pop cap = .ok b q') : q'.count ≤ q.count := by
  obtain ⟨-, -, -, rfl⟩ := pop_ok_iff.mp h
  exact Nat.sub_le _ _

/-- Settles O56: RXH pushes to Receive, TXH pops from Transmit, and the line touches neither buffer. -/
theorem othersOnlyFillReceiveAndDrainTransmit : Obligations.OthersOnlyFillReceiveAndDrainTransmit := by
  unfold Obligations.OthersOnlyFillReceiveAndDrainTransmit
  intro a s t ha h
  cases a with
  | normal => exact absurd rfl ha
  | rxh =>
    obtain ⟨ht, hrx⟩ := rxh_next h
    have hc : s.rx.count ≤ t.rx.count := by
      obtain ⟨hq, -⟩ | ⟨-, hrx, -⟩ := hrx
      · exact push_count_le hq
      · rw [hrx]
    rw [ht]
    exact ⟨hc, le_rfl, rfl, rfl, rfl, rfl, rfl, rfl, rfl, rfl⟩
  | txh =>
    obtain ⟨-, rfl⟩ | ⟨b, q, hq, -, rfl⟩ := txh_next h
    · exact ⟨le_rfl, le_rfl, rfl, rfl, rfl, rfl, rfl, rfl, rfl, rfl⟩
    · exact ⟨le_rfl, pop_count_le hq, rfl, rfl, rfl, rfl, rfl, rfl, rfl, rfl⟩
  | wireRx =>
    rw [(wireRx_next h).1]
    exact ⟨le_rfl, le_rfl, rfl, rfl, rfl, rfl, rfl, rfl, rfl, rfl⟩
  | wireTx =>
    rw [wireTx_next h]
    exact ⟨le_rfl, le_rfl, rfl, rfl, rfl, rfl, rfl, rfl, rfl, rfl⟩

/-- States with the same storage have the same cells. -/
theorem cell_eq_of_storage {s t : State} {d : Direction} {j : Nat} (hrx : t.rx.storage = s.rx.storage)
    (htx : t.tx.storage = s.tx.storage) : cell t d j = cell s d j := by
  cases d with
  | receive => simp only [cell, resolve_receive, hrx]
  | transmit => simp only [cell, resolve_transmit, htx]

@[simp] theorem cell_finish (st : Status) (v : BitVec 10) (n : Nat) (s : State) (d : Direction) (j : Nat) :
    cell (finish st v n s) d j = cell s d j := by
  rw [cell, cell, resolve_finish]

/-- Writing a buffer back leaves the other direction's cells, and those of its own that read as before. -/
theorem cell_setBuffer {d d' : Direction} {q : Buffer} {s : State} {j : Nat}
    (h : d = d' → q.storage.read j = (resolve d' s).storage.read j) : cell (setBuffer d' q s) d j = cell s d j := by
  by_cases hd : d = d'
  · subst hd
    rw [cell, resolve_setBuffer, h rfl, cell]
  · rw [cell, cell, resolve_setBuffer_other hd]

/-- A push leaves every cell but that of its direction's write cursor. -/
theorem cell_push {cap : Nat} {b : Byte} {d d' : Direction} {q : Buffer} {s : State} {j : Nat}
    (hq : (resolve d' s).push cap b = .ok q) (hj : d = d' → j ≠ (resolve d' s).wc) :
    cell (setBuffer d' q s) d j = cell s d j :=
  cell_setBuffer fun hd => push_read_other hq (hj hd)

/-- Settles O58: a push stores at the write cursor, and no other operation a command is made of stores a byte. -/
theorem commandsStoreAtTheWriteCursorOnly : Obligations.CommandsStoreAtTheWriteCursorOnly := by
  unfold Obligations.CommandsStoreAtTheWriteCursorOnly
  intro i s t h d j hj
  cases exec_next h
  case push d' b q hq =>
    rw [cell_finish]
    exact cell_push hq fun hd => hd ▸ hj.resolve_left (not_not_intro hd)
  case byteEnqueued b q _ _ hq | lineEnqueued n bs k e b q _ _ _ hq =>
    have hcell : cell (setBuffer .transmit q s) d j = cell s d j :=
      cell_push hq fun hd => hj.resolve_left (not_not_intro hd)
    rw [← hcell]
    exact cell_eq_of_storage rfl rfl
  case pop d' b q hq =>
    rw [cell_finish]
    exact cell_setBuffer fun _ => by rw [(pop_frame hq).1]
  case cbInit d' | setEvent d' en =>
    rw [cell_finish]
    exact cell_setBuffer fun _ => rfl
  case readByte b q _ hq | readLineByte m b q _ hq _ => exact cell_eq_of_storage (pop_frame hq).1 rfl
  all_goals exact cell_eq_of_storage (by simp [writeLineNext_eq]) (by simp [writeLineNext_eq])

end Sys2Proof.Machine

namespace Sys2Proof

/-! ## Encoding: the operands in their fields (spec/30_encoding.md R61, R69) -/

theorem directed_ok_iff {imm : Byte} {i j : Instr} : directed imm i = .ok j ↔ imm = 0#8 ∧ i = j := by
  unfold directed
  split <;> simp [*]

theorem undirected_ok_iff {d : BitVec 1} {r : Except IllegalWord Instr} {i : Instr} :
    undirected d r = .ok i ↔ d = 0#1 ∧ r = .ok i := by
  unfold undirected
  split <;> simp [*]

/-- The immediate of SET_EVENT, whose enable is bit 0. -/
theorem setEventImm_fields (en : Bool) :
    (0#7 ++ BitVec.ofBool en : Byte).extractLsb' 1 7 = 0#7 ∧ (0#7 ++ BitVec.ofBool en : Byte).getLsbD 0 = en := by
  cases en <;> exact ⟨rfl, rfl⟩

theorem setEventImm_getLsbD {imm : Byte} (h : imm.extractLsb' 1 7 = 0#7) :
    (0#7 ++ BitVec.ofBool (imm.getLsbD 0) : Byte) = imm := by
  revert imm
  decide

theorem configImm_high (c : TransportConfig) : (configImm c).extractLsb' 4 4 = 0#4 := by
  obtain ⟨tx, rx, rxcb, txcb⟩ := c
  revert tx rx rxcb txcb
  decide

theorem configOf_configImm (c : TransportConfig) : configOf (configImm c) = c := by
  obtain ⟨tx, rx, rxcb, txcb⟩ := c
  revert tx rx rxcb txcb
  decide

theorem configImm_configOf {imm : Byte} (h : imm.extractLsb' 4 4 = 0#4) : configImm (configOf imm) = imm := by
  revert imm
  decide

/-! ## Encoding: the round trip (spec/30_encoding.md R60, R62, R65) -/

/-- Settles O2: a command's word is put together from its fields, which the decoder's row reads back. -/
theorem decodeOfEncode : Obligations.DecodeOfEncode := by
  unfold Obligations.DecodeOfEncode
  intro i
  cases i with
  | setEvent d en =>
    obtain ⟨hhigh, hbit⟩ := setEventImm_fields en
    rw [encode, decodeWord_commandWord, decodeFields, if_pos hhigh, hbit, directionOf_bit]
  | initTransport cfg =>
    rw [encode, decodeWord_commandWord, decodeFields, if_pos (configImm_high cfg), configOf_configImm]
    rfl
  | _ => simp [encode, decodeWord_commandWord, decodeFields, directed, undirected]

theorem decodeWord_of_encode_eq {i : Instr} {w : Word} (h : encode i = w) : decodeWord w = .ok i :=
  h ▸ decodeOfEncode i

/-- Row by row of the opcode map: the fields a command is read from are those it is encoded by. -/
theorem encode_of_decodeFields {op : BitVec 4} {d : BitVec 1} {imm : Byte} {i : Instr}
    (h : decodeFields op d imm = .ok i) : encode i = commandWord op d imm := by
  revert h
  fun_cases decodeFields op d imm
  -- The commands with a direction: CB_INIT, POP, LEN, IS_FULL, IS_EMPTY; PUSH; SET_EVENT.
  case case1 | case3 | case4 | case5 | case6 =>
    intro h
    obtain ⟨rfl, rfl⟩ := directed_ok_iff.mp h
    simp [encode]
  case case2 =>
    rintro ⟨⟩
    simp [encode]
  case case7 hhigh =>
    rintro ⟨⟩
    simp only [encode, setEventImm_getLsbD hhigh, bit_directionOf]
  case case8 | case16 => rintro ⟨⟩
  -- The commands without one: INITIALIZE; GIE_CLR and GIE_SET; READ_BYTE; those whose immediate is free.
  all_goals
    intro h
    obtain ⟨rfl, h⟩ := undirected_ok_iff.mp h
  case case9 =>
    split at h
    · next hhigh =>
      cases h
      simp only [encode, configImm_configOf hhigh]
    · cases h
  case case14 =>
    split at h
    · next h0 => cases h; rw [encode, h0]
    · split at h
      · next h1 => cases h; rw [encode, h1]
      · cases h
  case case12 =>
    obtain ⟨rfl, rfl⟩ := directed_ok_iff.mp h
    rfl
  all_goals
    cases h
    rfl

/-- A word decodes to a command only with `rsv` zero, and then by its other fields. -/
theorem decodeWord_ok_iff {w : Word} {i : Instr} :
    decodeWord w = .ok i ↔ rsvField w = 0#3 ∧ decodeFields (opField w) (dirField w) (immField w) = .ok i := by
  unfold decodeWord
  split <;> simp [*]

/-- Settles O3: the word's fields are those of the command's word, and a word is put together from its fields. -/
theorem encodeOfDecode : Obligations.EncodeOfDecode := by
  unfold Obligations.EncodeOfDecode
  intro w i h
  obtain ⟨hrsv, hf⟩ := decodeWord_ok_iff.mp h
  rw [encode_of_decodeFields hf, commandWord_fields hrsv]

/-- Settles O1: each legal word is a command's (O2), and each illegal one has a field its row refuses. -/
theorem sampleWordsDecode : Obligations.SampleWordsDecode := by
  unfold Obligations.SampleWordsDecode
  refine ⟨?_, ?_, ?_, ?_, ?_, ?_, ?_, ?_, ?_, ?_, ?_, ?_, by decide, by decide, by decide, by decide⟩ <;>
    exact decodeWord_of_encode_eq (by decide)

/-! ## Encoding: match and mask (spec/30_encoding.md R62) -/

/-- A masked word's fields are masked by the mask's fields. -/
theorem fields_of_masked {w mask pattern : Word} (h : w &&& mask = pattern) :
    opField w &&& opField mask = opField pattern ∧ dirField w &&& dirField mask = dirField pattern ∧
    rsvField w &&& rsvField mask = rsvField pattern ∧ immField w &&& immField mask = immField pattern := by
  subst h
  simp only [opField, dirField, rsvField, immField, BitVec.extractLsb'_and, and_self]

theorem eq_of_and_allOnes {n : Nat} {x y : BitVec n} (h : x &&& BitVec.allOnes n = y) : x = y :=
  BitVec.and_allOnes.symm.trans h

/-- Every row fixes the whole of `op`, and `rsv` at zero. -/
theorem opcodeMap_fixes_op_rsv : ∀ r ∈ opcodeMap, opField r.mask = BitVec.allOnes 4 ∧
    rsvField r.mask = BitVec.allOnes 3 ∧ rsvField r.pattern = 0#3 := by decide

/-- A word of a row is put together from the row's `op` and its own direction and immediate. -/
theorem commandWord_of_masked {r : OpcodeRow} (hr : r ∈ opcodeMap) {w : Word} (h : w &&& r.mask = r.pattern) :
    commandWord (opField r.pattern) (dirField w) (immField w) = w := by
  obtain ⟨hop, -, hrsv, -⟩ := fields_of_masked h
  obtain ⟨hmop, hmrsv, hprsv⟩ := opcodeMap_fixes_op_rsv r hr
  rw [hmop, BitVec.and_allOnes] at hop
  rw [hmrsv, BitVec.and_allOnes, hprsv] at hrsv
  rw [← hop, commandWord_fields hrsv]

theorem setEventImm_of_masked {imm : Byte} (h : imm &&& 0xFE#8 = 0#8) : imm.extractLsb' 1 7 = 0#7 := by
  revert imm
  decide

theorem configImm_of_masked {imm : Byte} (h : imm &&& 0xF0#8 = 0#8) : imm.extractLsb' 4 4 = 0#4 := by
  revert imm
  decide

/-- A direction and an immediate that a row admits are the operands of a command of that row. -/
theorem exists_command_of_row {r : OpcodeRow} (hr : r ∈ opcodeMap) {d : BitVec 1} {imm : Byte}
    (hd : d &&& dirField r.mask = dirField r.pattern) (hi : imm &&& immField r.mask = immField r.pattern) :
    ∃ i, encode i = commandWord (opField r.pattern) d imm ∧ rowOf i = r := by
  simp only [opcodeMap, List.map_cons, List.map_nil, List.mem_cons, List.not_mem_nil, or_false] at hr
  -- One case a row, in the order of the map: the rows that leave the direction free, then those that fix it.
  rcases hr with rfl | rfl | rfl | rfl | rfl | rfl | rfl | rfl | rfl | rfl | rfl | rfl | rfl | rfl | rfl
  · obtain rfl := eq_of_and_allOnes hi
    exact ⟨.cbInit (directionOf d), by rw [encode, bit_directionOf]; rfl, rfl⟩
  · exact ⟨.push (directionOf d) imm, by rw [encode, bit_directionOf]; rfl, rfl⟩
  · obtain rfl := eq_of_and_allOnes hi
    exact ⟨.pop (directionOf d), by rw [encode, bit_directionOf]; rfl, rfl⟩
  · obtain rfl := eq_of_and_allOnes hi
    exact ⟨.len (directionOf d), by rw [encode, bit_directionOf]; rfl, rfl⟩
  · obtain rfl := eq_of_and_allOnes hi
    exact ⟨.isFull (directionOf d), by rw [encode, bit_directionOf]; rfl, rfl⟩
  · obtain rfl := eq_of_and_allOnes hi
    exact ⟨.isEmpty (directionOf d), by rw [encode, bit_directionOf]; rfl, rfl⟩
  · refine ⟨.setEvent (directionOf d) (imm.getLsbD 0), ?_, rfl⟩
    rw [encode, bit_directionOf, setEventImm_getLsbD (setEventImm_of_masked hi)]
    rfl
  all_goals obtain rfl := eq_of_and_allOnes hd
  · refine ⟨.initTransport (configOf imm), ?_, rfl⟩
    rw [encode, configImm_configOf (configImm_of_masked hi)]
    rfl
  · exact ⟨.writeByte imm, rfl, rfl⟩
  · exact ⟨.writeLine imm, rfl, rfl⟩
  · obtain rfl := eq_of_and_allOnes hi
    exact ⟨.readByte, rfl, rfl⟩
  · exact ⟨.readLine imm, rfl, rfl⟩
  · obtain rfl := eq_of_and_allOnes hi
    exact ⟨.gieClr, rfl, rfl⟩
  · obtain rfl := eq_of_and_allOnes hi
    exact ⟨.gieSet, rfl, rfl⟩
  · exact ⟨.payload imm, rfl, rfl⟩

/-- A word with a row's bits under its mask decodes to a command of that row. -/
theorem decodeWord_of_masked {r : OpcodeRow} (hr : r ∈ opcodeMap) {w : Word} (h : w &&& r.mask = r.pattern) :
    ∃ i, decodeWord w = .ok i ∧ rowOf i = r := by
  obtain ⟨-, hd, -, hi⟩ := fields_of_masked h
  obtain ⟨i, he, hrow⟩ := exists_command_of_row hr hd hi
  exact ⟨i, decodeWord_of_encode_eq (he.trans (commandWord_of_masked hr h)), hrow⟩

theorem encodesInRow (i : Instr) : Laws.EncodesInRow.Statement i := by
  cases i with
  | cbInit d => exact Laws.EncodesInRow.cbInit d
  | push d b => exact Laws.EncodesInRow.push d b
  | pop d => exact Laws.EncodesInRow.pop d
  | len d => exact Laws.EncodesInRow.len d
  | isFull d => exact Laws.EncodesInRow.isFull d
  | isEmpty d => exact Laws.EncodesInRow.isEmpty d
  | setEvent d en => exact Laws.EncodesInRow.setEvent d en
  | initTransport cfg => exact Laws.EncodesInRow.initTransport cfg
  | writeByte b => exact Laws.EncodesInRow.writeByte b
  | writeLine n => exact Laws.EncodesInRow.writeLine n
  | readByte => exact Laws.EncodesInRow.readByte
  | readLine m => exact Laws.EncodesInRow.readLine m
  | gieClr => exact Laws.EncodesInRow.gieClr
  | gieSet => exact Laws.EncodesInRow.gieSet
  | payload b => exact Laws.EncodesInRow.payload b

/-- A command's word has the bits of its own row. -/
theorem encode_masked (i : Instr) : encode i &&& (rowOf i).mask = (rowOf i).pattern := by
  have h := encodesInRow i
  rwa [Laws.EncodesInRow.Statement, OpcodeRow.admits, decide_eq_true_iff] at h

/-- Settles O4: the fields a row fixes leave a command's operands free, and a word has one meaning (O3). -/
theorem wordIsOfItsRow : Obligations.WordIsOfItsRow := by
  unfold Obligations.WordIsOfItsRow
  refine ⟨fun w r hr => ⟨decodeWord_of_masked hr, ?_⟩, fun w r₁ hr₁ r₂ hr₂ h₁ h₂ => ?_⟩
  · rintro ⟨i, hi, rfl⟩
    rw [← encodeOfDecode w i hi]
    exact encode_masked i
  · obtain ⟨i₁, hi₁, rfl⟩ := decodeWord_of_masked hr₁ h₁
    obtain ⟨i₂, hi₂, rfl⟩ := decodeWord_of_masked hr₂ h₂
    cases hi₁.symm.trans hi₂
    rfl

end Sys2Proof

namespace Sys2Proof.Machine

/-! ## Encoding: the words that are illegal at a command boundary (spec/30_encoding.md R64, R65) -/

theorem isPayload_iff {i : Instr} : i.isPayload = true ↔ ∃ b, i = .payload b := by
  cases i <;> simp [Instr.isPayload]

theorem one_lt_imm_iff {imm : Byte} : 1#8 < imm ↔ imm.extractLsb' 1 7 ≠ 0#7 := by
  revert imm
  decide

theorem fifteen_lt_imm_iff {imm : Byte} : 15#8 < imm ↔ imm.extractLsb' 4 4 ≠ 0#4 := by
  revert imm
  decide

theorem one_lt_imm_iff_ne {imm : Byte} : 1#8 < imm ↔ imm ≠ 0#8 ∧ imm ≠ 1#8 := by
  revert imm
  decide

theorem dir_eq_one_iff {d : BitVec 1} : d = 1#1 ↔ d ≠ 0#1 := by
  revert d
  decide

theorem op_reserved_or_mapped (op : BitVec 4) : (op = 0x0#4 ∨ op = 0xF#4) ∨
    op ∈ [0x1#4, 0x2#4, 0x3#4, 0x4#4, 0x5#4, 0x6#4, 0x7#4, 0x8#4, 0x9#4, 0xA#4, 0xB#4, 0xC#4, 0xD#4, 0xE#4] := by
  revert op
  decide

/-- R65's list is the words that decode to no command, and the PAYLOAD words. -/
theorem illegalAtBoundary_iff {w : Word} :
    illegalAtBoundary w ↔ ∀ i, decodeWord w = .ok i → i.isPayload = true := by
  simp only [decodeWord_ok_iff, illegalAtBoundary]
  generalize opField w = op, rsvField w = rsv, dirField w = d, immField w = imm
  by_cases hr : rsv = 0#3
  · simp only [hr, true_and, ne_eq, not_true, false_or]
    fun_cases decodeFields op d imm
    -- The rows in the order of the opcode map, SET_EVENT with its enable legal and not, and the reserved codes last.
    case case1 | case3 | case4 | case5 | case6 => simp [directed_ok_iff, Instr.isPayload]
    case case2 => simp [Instr.isPayload]
    case case7 hen => simp [one_lt_imm_iff, hen, Instr.isPayload]
    case case8 hen => simp [one_lt_imm_iff, hen]
    case case9 => split <;> simp [undirected_ok_iff, dir_eq_one_iff, fifteen_lt_imm_iff, Instr.isPayload, *]
    case case10 | case11 | case13 => simp [undirected_ok_iff, dir_eq_one_iff, Instr.isPayload]
    case case12 => simp [undirected_ok_iff, directed_ok_iff, dir_eq_one_iff, Instr.isPayload, or_iff_not_imp_left]
    case case14 =>
      split
      · simp [undirected_ok_iff, dir_eq_one_iff, Instr.isPayload, *]
      · split <;> simp [undirected_ok_iff, dir_eq_one_iff, one_lt_imm_iff_ne, Instr.isPayload, *]
    case case15 => simp [undirected_ok_iff, Instr.isPayload]
    case case16 =>
      have hop : op = 0x0#4 ∨ op = 0xF#4 := by
        have hop := op_reserved_or_mapped op
        simp only [List.mem_cons, List.not_mem_nil, or_false] at hop
        tauto
      rcases hop with rfl | rfl <;> simp
  · simp [hr]

/-! ## Encoding: the commands that raise F_ILLEGAL (spec/60_exceptions.md R154) -/

section
variable {s t : State}

@[simp] theorem writeLineNext_fault (total len : Nat) (s : State) : (writeLineNext total len s).fault = s.fault := by
  rw [writeLineNext_eq]

theorem writeLineW1_keeps_fault {seq : List Byte} {len : Nat} (h : writeLineW1 seq len s = .next t) :
    t.fault = s.fault := by
  obtain ⟨b, -, ⟨q, -, rfl⟩ | ⟨-, rfl⟩⟩ := writeLineW1_next h <;> simp

theorem execCbInit_ne_illegal {d : Direction} (hs : s.fault = none) (h : execCbInit d s = .next t) :
    t.fault ≠ some .illegal := by
  unfold execCbInit at h
  split at h <;> cases h <;> simp [hs]

theorem execInitialize_ne_illegal {cfg : TransportConfig} (hs : s.fault = none)
    (h : execInitialize cfg s = .next t) : t.fault ≠ some .illegal := by
  unfold execInitialize at h
  split at h
  · cases h; simp [hs]
  · split at h <;> cases h <;> simp [hs, programBaud]

theorem execWriteByte_ne_illegal {b : Byte} (hs : s.fault = none) (h : execWriteByte b s = .next t) :
    t.fault ≠ some .illegal := by
  have first (hw : writeByteW1 b s = .next t) : t.fault ≠ some .illegal := by
    obtain ⟨-, rfl⟩ | ⟨-, -, ⟨q, -, rfl⟩ | ⟨-, rfl⟩⟩ := writeByteW1_next hw <;> simp [hs]
  unfold execWriteByte at h
  split at h
  · cases h; simp [hs]
  all_goals exact first h

theorem execWriteLine_ne_illegal {n : Byte} (hs : s.fault = none) (hl : linePayload n s ≠ none)
    (h : execWriteLine n s = .next t) : t.fault ≠ some .illegal := by
  unfold execWriteLine at h
  split at h
  · next hn => exact absurd hn hl
  · next bs _ =>
    have first (hw : writeLineL0 (lineBytes s bs) (1 + n.toNat) s = .next t) : t.fault ≠ some .illegal := by
      obtain ⟨-, rfl⟩ | ⟨-, -, ⟨-, rfl⟩ | ⟨-, hw1⟩⟩ := writeLineL0_next hw
      · simp [hs]
      · simp [hs]
      · simp [writeLineW1_keeps_fault hw1, hs]
    split at h
    · simp [writeLineW1_keeps_fault h, hs]
    · cases h; simp [hs]
    all_goals exact first h

theorem execReadByte_ne_illegal (hs : s.fault = none) (h : execReadByte s = .next t) :
    t.fault ≠ some .illegal := by
  unfold execReadByte at h
  split at h
  · cases h; simp [hs]
  · split at h <;> cases h <;> simp [hs]

theorem execReadLine_ne_illegal {m : Byte} (hs : s.fault = none) (h : execReadLine m s = .next t) :
    t.fault ≠ some .illegal := by
  have first (hw : readLineL1 s = .next t) : t.fault ≠ some .illegal := by
    unfold readLineL1 at hw
    split at hw
    · cases hw; simp [hs]
    · split at hw <;> cases hw <;> simp [hs]
  unfold execReadLine at h
  split at h
  · obtain ⟨-, rfl⟩ | ⟨b, q, -, ⟨-, rfl⟩ | ⟨-, rfl⟩⟩ := readLineL2_next h <;> simp [hs]
  all_goals exact first h

end

/-- The commands whose effect at a command boundary is F_ILLEGAL: PAYLOAD, and WRITE_LINE with a malformed payload. -/
def Malformed (i : Instr) (s : State) : Prop :=
  i.isPayload = true ∨ ∃ n, i = .writeLine n ∧ linePayload n s = none

theorem exec_of_malformed {i : Instr} {s : State} (h : Malformed i s) : exec i s = .next (raiseFault .illegal s) := by
  obtain hp | ⟨n, rfl, hl⟩ := h
  · obtain ⟨b, rfl⟩ := isPayload_iff.mp hp
    rfl
  · show execWriteLine n s = _
    rw [execWriteLine, hl]

/-- No other command raises F_ILLEGAL. -/
theorem exec_ne_illegal {i : Instr} {s t : State} (hs : s.fault = none) (hi : ¬ Malformed i s)
    (h : exec i s = .next t) : t.fault ≠ some .illegal := by
  simp only [Malformed, not_or, not_exists, not_and] at hi
  obtain ⟨hp, hl⟩ := hi
  cases i with
  | cbInit d => exact execCbInit_ne_illegal hs h
  | push d b => obtain ⟨q, -, rfl⟩ | ⟨-, rfl⟩ := execPush_next h <;> simp [hs]
  | pop d => obtain ⟨b, q, -, rfl⟩ | ⟨-, rfl⟩ := execPop_next h <;> simp [hs]
  | len d | isFull d | isEmpty d | setEvent d en | gieClr | gieSet =>
    cases h
    simp [hs]
  | initTransport cfg => exact execInitialize_ne_illegal hs h
  | writeByte b => exact execWriteByte_ne_illegal hs h
  | writeLine n => exact execWriteLine_ne_illegal hs (hl n rfl) h
  | readByte => exact execReadByte_ne_illegal hs h
  | readLine m => exact execReadLine_ne_illegal hs h
  | payload b => exact absurd rfl hp

theorem exec_illegal_iff {i : Instr} {s : State} (hs : s.fault = none) :
    exec i s = .next (raiseFault .illegal s) ↔ Malformed i s :=
  ⟨fun h => not_not.mp fun hi => exec_ne_illegal hs hi h (by simp [hs]), exec_of_malformed⟩

/-- Settles O5: an illegal word decodes to nothing or to PAYLOAD, and of the commands only a malformed one raises
F_ILLEGAL. -/
theorem illegalWordsFault : Obligations.IllegalWordsFault := by
  unfold Obligations.IllegalWordsFault
  intro s w hw _ hs
  have hfetch : fetch s = decodeWord w := by rw [fetch, hw]
  rw [← raiseFault_of_none hs, illegalAtBoundary_iff]
  cases hd : decodeWord w with
  | error e =>
    rw [normalStep, hfetch, hd]
    simp
  | ok i =>
    rw [normalStep_of_fetch (hfetch.trans hd), exec_illegal_iff hs]
    simp only [Except.ok.injEq, forall_eq', Malformed]

/-! ## Encoding: well-formed streams (spec/30_encoding.md R63, R64) -/

/-- The operand words a well-formed stream begins with are the payload of a line. -/
theorem payloadBytes_assemble_ne_none {k : Nat} {is : List Instr} (h : codeWfFrom k is = true) :
    payloadBytes k (assemble is) ≠ none := by
  induction k generalizing is with
  | zero => simp [payloadBytes]
  | succ k ih =>
    cases is with
    | nil => simp [codeWfFrom] at h
    | cons i is =>
      simp only [codeWfFrom, Bool.and_eq_true] at h
      obtain ⟨hp, hrest⟩ := h
      obtain ⟨b, rfl⟩ := isPayload_iff.mp hp
      change payloadBytes (k + 1) (encode (.payload b) :: assemble is) ≠ none
      rw [payloadBytes, decodeOfEncode]
      simpa using ih hrest

/-- After its operand words a well-formed stream goes on with a command. -/
theorem codeWf_drop {k : Nat} {is : List Instr} (h : codeWfFrom k is = true) : codeWf (is.drop k) = true := by
  induction k generalizing is with
  | zero => exact h
  | succ k ih =>
    cases is with
    | nil => simp [codeWfFrom] at h
    | cons i is =>
      simp only [codeWfFrom, Bool.and_eq_true] at h
      exact ih h.2

/-- At a command boundary inside a well-formed stream stands a command that is not malformed, and after it and its operand
words the stream is well formed again. -/
theorem restWf.command {s : State} (h : restWf s) (hpc : s.pc < s.prog.length) :
    ∃ i, fetch s = .ok i ∧ ¬ Malformed i s ∧
      ∃ is, s.prog.drop (s.pc + i.length) = assemble is ∧ codeWf is = true := by
  obtain ⟨is, hprog, hwf⟩ := h
  rw [List.drop_eq_getElem_cons hpc] at hprog
  cases is with
  | nil => cases hprog
  | cons i is =>
    obtain ⟨hword, hrest⟩ := List.cons.inj hprog
    simp only [codeWf, codeWfFrom, Bool.and_eq_true, Bool.not_eq_true'] at hwf
    obtain ⟨hp, hops⟩ := hwf
    refine ⟨i, ?_, ?_, is.drop i.operandWords, ?_, codeWf_drop hops⟩
    · rw [fetch, List.getElem?_eq_getElem hpc, hword]
      exact decodeOfEncode i
    · rintro (hi | ⟨n, rfl, hl⟩)
      · simp [hp] at hi
      · rw [linePayload, hrest] at hl
        exact payloadBytes_assemble_ne_none hops hl
    · rw [Instr.length, ← Nat.add_assoc, ← List.drop_drop, hrest]
      exact List.map_drop.symm

/-- A micro-step leaves `pc` at its command, or goes to the word after it and its operand words. -/
theorem CommandStep.pc {i : Instr} {s t : State} (h : CommandStep s i t) : t.pc = s.pc ∨ t.pc = s.pc + i.length := by
  cases h
  case answer st v hi => exact .inr (by rw [finish_pc, Instr.length, hi])
  case lineDropped | lineArmed =>
    rw [writeLineNext_eq]
    dsimp only
    split
    · exact .inr rfl
    · exact .inl rfl
  case fault | byteEnqueued | lineEnqueued | readLineStart | readLineByte => exact .inl rfl
  all_goals exact .inr (by simp [Instr.length, Instr.operandWords])

/-- The handlers and the line leave `pc` and the `fault` register as they are. -/
theorem agentStep_pc_fault {a : Agent} {s t : State} (ha : a ≠ .normal) (h : agentStep a s = .next t) :
    t.pc = s.pc ∧ t.fault = s.fault := by
  obtain ⟨hrx, htx, hwr, hwt⟩ := handlersAndLineFrame s t
  cases a with
  | normal => exact absurd rfl ha
  | rxh =>
    rw [(hrx h).1]
    exact ⟨rfl, rfl⟩
  | txh =>
    rw [(htx h).1]
    exact ⟨rfl, rfl⟩
  | wireRx =>
    rw [hwr h]
    exact ⟨rfl, rfl⟩
  | wireTx =>
    rw [hwt h]
    exact ⟨rfl, rfl⟩

/-- NORMAL inside a well-formed stream runs a command that is not malformed, and stays in the stream's commands. -/
theorem normalStep_restWf {s t : State} (hs : restWf s) (he : enabled .normal s = true) (h : normalStep s = .next t) :
    restWf t ∧ t.fault ≠ some .illegal := by
  obtain ⟨hfault, hpc⟩ := (enableConditions s).1.mp he
  obtain ⟨i, hf, hi, hnext⟩ := hs.command hpc
  rw [normalStep_of_fetch hf] at h
  have hstep := exec_next h
  refine ⟨?_, exec_ne_illegal hfault hi h⟩
  unfold restWf
  rw [hstep.continues.prog]
  obtain hsame | hpc' := hstep.pc
  · rwa [hsame]
  · rwa [hpc']

/-- Settles O6: NORMAL goes from command to command of the stream, none malformed; no other agent moves `pc` or faults. -/
theorem wellFormedCodeIsNeverIllegal : Obligations.WellFormedCodeIsNeverIllegal := by
  unfold Obligations.WellFormedCodeIsNeverIllegal
  intro s t hs h
  obtain ⟨a, turns, round, -, he, ha⟩ := step_next_turns h
  by_cases hn : a = .normal
  · subst hn
    obtain ⟨hwf, hne⟩ := normalStep_restWf (s := { s with turns := turns, round := round }) hs (by simpa using he) ha
    exact ⟨hwf, fun hill => absurd hill hne⟩
  · obtain ⟨hpc, hfault⟩ := agentStep_pc_fault hn ha
    refine ⟨?_, fun hill => hfault ▸ hill⟩
    unfold restWf
    rwa [(step_continues h).prog, hpc]

end Sys2Proof.Machine

namespace Sys2Proof.Machine

/-! ## Ring buffer: the helpers' results under the invariant (spec/10_state.md R24, spec/40_ring_buffer.md R83) -/

theorem Buffer.Inv.full_iff {cap : Nat} {q : Buffer} (h : Buffer.Inv cap q) : q.full = true ↔ q.count = cap := by
  obtain ⟨-, hfull, -⟩ := h
  rw [hfull, decide_eq_true_iff]

/-- What a successful push leaves in the registers it writes. -/
theorem push_registers {cap : Nat} {b : Byte} {q q' : Buffer} (h : Buffer.Inv cap q) (hp : q.push cap b = .ok q') :
    q'.wc = (q.wc + 1) % cap ∧ q'.count = q.count + 1 ∧ (q'.full = true ↔ q.count + 1 = cap) := by
  have hfull := (push_inv h hp).full_iff
  obtain ⟨-, -, rfl⟩ := push_ok_iff.mp hp
  exact ⟨rfl, rfl, hfull⟩

/-- The count fits the ten bits of a response value. -/
theorem State.BuffersInv.count_lt_two_pow {s : State} (h : s.BuffersInv) (d : Direction) :
    (resolve d s).count < 2 ^ 10 := by
  obtain ⟨hcount, -⟩ := h.buffer d
  obtain ⟨hp, -⟩ := h
  simp only [Params.wf, Bool.and_eq_true, decide_eq_true_eq] at hp
  omega

/-! ## Ring buffer: words and answers (spec/30_encoding.md R60, R66) -/

/-- A command word without an immediate: the opcode's pattern and the direction in bit 11. -/
theorem commandWord_no_imm (op : BitVec 4) (d : BitVec 1) :
    commandWord op d 0#8 = (op ++ 0#12) ||| ((0#15 ++ d : Word) <<< 11) := by
  revert op d
  decide

theorem respWord_ok (v : BitVec 10) : respWord .ok v = (0#6 ++ v : Word) := rfl

theorem respWord_flagValue (b : Bool) : respWord .ok (flagValue b) = if b then 0x0001#16 else 0x0000#16 := by
  cases b <;> rfl

/-- Finishing writes the response, `pc` and `ustep`. -/
theorem finish_eq (st : Status) (v : BitVec 10) (n : Nat) (s : State) :
    finish st v n s = { s with resp := s.resp ++ [respWord st v], pc := s.pc + n, ustep := .idle } := rfl

theorem resolve_finish_setBuffer_other {d d' : Direction} (h : d' ≠ d) (st : Status) (v : BitVec 10) (n : Nat)
    (q : Buffer) (s : State) : resolve d' (finish st v n (setBuffer d q s)) = resolve d' s := by
  rw [resolve_finish, resolve_setBuffer_other h]

/-! ## Ring buffer: the cases of each command (spec/40_ring_buffer.md R81 to R91) -/

section
variable {d : Direction} {b : Byte} {q : Buffer} {s : State}

theorem exec_cbInit_of_unmasked (h : s.rxIntEn = true ∨ s.txIntEn = true) :
    exec (.cbInit d) s = .next (raiseFault .cbinitLive s) :=
  if_pos (by simpa using h)

theorem exec_cbInit_of_masked (hrx : s.rxIntEn = false) (htx : s.txIntEn = false) :
    exec (.cbInit d) s = .next (finish .ok 0#10 1 (setBuffer d (resolve d s).clear s)) :=
  if_neg (by simp [hrx, htx])

theorem exec_push_of_ok (h : (resolve d s).push s.params.capacity b = .ok q) :
    exec (.push d b) s = .next (finish .ok 0#10 1 (setBuffer d q s)) := by
  show execPush d b s = _
  rw [execPush, h]

theorem exec_push_of_full (h : (resolve d s).full = true) :
    exec (.push d b) s = .next (finish .bufferFull 0#10 1 s) := by
  show execPush d b s = _
  rw [execPush, push_bufferFull_iff.mpr h]

theorem exec_pop_of_ok (h : (resolve d s).pop s.params.capacity = .ok b q) :
    exec (.pop d) s = .next (finish .ok (byteValue b) 1 (setBuffer d q s)) := by
  show execPop d s = _
  rw [execPop, h]

theorem exec_pop_of_count_zero (h : (resolve d s).count = 0) :
    exec (.pop d) s = .next (finish .bufferEmpty 0#10 1 s) := by
  show execPop d s = _
  rw [execPop, pop_bufferEmpty_iff.mpr h]

theorem exec_len : exec (.len d) s = .next (finish .ok (countValue (resolve d s).count) 1 s) := rfl

theorem exec_isFull : exec (.isFull d) s = .next (finish .ok (flagValue (resolve d s).full) 1 s) := rfl

theorem exec_isEmpty : exec (.isEmpty d) s = .next (finish .ok (flagValue (isEmptyFlag (resolve d s))) 1 s) := rfl

theorem exec_setEvent (en : Bool) : exec (.setEvent d en) s =
    .next (finish .ok 0#10 1 (setBuffer d { resolve d s with evEn := en } s)) := rfl

end

/-! ## Ring buffer: the obligations -/

/-- Settles O26: a full buffer refuses the push; under the invariant any other push succeeds. -/
theorem pushAppendsOrReportsFull : Obligations.PushAppendsOrReportsFull := by
  unfold Obligations.PushAppendsOrReportsFull
  refine ⟨fun d b s hfull => exec_push_of_full hfull, fun d b s hinv hfull => ?_⟩
  obtain ⟨q, hq⟩ : ∃ q, (resolve d s).push s.params.capacity b = .ok q :=
    (push_total hinv).resolve_right fun hr => by simp [push_bufferFull_iff.mp hr] at hfull
  obtain ⟨hwc, hcount, hfull'⟩ := push_registers hinv hq
  obtain ⟨hrc, hev⟩ := push_frame hq
  have hbuf : resolve d (finish .ok 0#10 1 (setBuffer d q s)) = q := by simp
  refine ⟨finish .ok 0#10 1 (setBuffer d q s), exec_push_of_ok hq, ?_⟩
  rw [hbuf]
  refine ⟨hwc, hrc, hcount, hfull', hev, ?stored, fun d' j hj => ?otherCells, ?contents,
    fun d' hd => resolve_finish_setBuffer_other hd .., finish_setBuffer ..⟩
  case stored =>
    rw [cell, hbuf]
    exact push_read_same hinv hq
  case otherCells =>
    rw [cell_finish]
    exact cell_push hq fun hd => hj.resolve_left (not_not_intro hd)
  case contents =>
    rw [contents, hbuf, finish_params, setBuffer_params]
    exact push_contents hinv hq

/-- Settles O27: an empty buffer answers BufferEmpty; under the invariant any other pop succeeds. -/
theorem popTakesOldestOrReportsEmpty : Obligations.PopTakesOldestOrReportsEmpty := by
  unfold Obligations.PopTakesOldestOrReportsEmpty
  refine ⟨fun d s hempty => exec_pop_of_count_zero hempty, fun d s hinv hpos => ?_⟩
  obtain ⟨b, q, hq⟩ := (pop_total hinv).resolve_right fun hr => hpos.ne' (pop_bufferEmpty_iff.mp hr)
  obtain ⟨-, -, hb, hregs⟩ := pop_ok_iff.mp hq
  have hbuf : resolve d (finish .ok (byteValue b) 1 (setBuffer d q s)) = q := by simp
  refine ⟨finish .ok (byteValue b) 1 (setBuffer d q s), b, exec_pop_of_ok hq, hb, ?contents, hbuf.trans hregs,
    fun d' hd => resolve_finish_setBuffer_other hd .., ?frame⟩
  case contents =>
    rw [contents, contents, hbuf, finish_params, setBuffer_params]
    exact pop_contents hq
  case frame =>
    rw [show (0x00#8 ++ b : Word) = respWord .ok (byteValue b) from (respWord_byteValue .ok b).symm]
    exact finish_setBuffer ..

/-- Settles O25: the test of the two enables decides between the fault and the cleared buffer. -/
theorem cbInitEmptiesOrFaults : Obligations.CbInitEmptiesOrFaults := by
  unfold Obligations.CbInitEmptiesOrFaults
  refine ⟨fun d s hlive hfault => ?_, fun d s hrx htx => ?_⟩
  · rw [exec_cbInit_of_unmasked hlive, raiseFault_of_none hfault]
  · have hbuf : resolve d (finish .ok 0#10 1 (setBuffer d (resolve d s).clear s)) = (resolve d s).clear := by simp
    refine ⟨_, exec_cbInit_of_masked hrx htx, hbuf, fun d' hd => resolve_finish_setBuffer_other hd .., ?_,
      finish_setBuffer ..⟩
    rw [contents, hbuf, contents_clear]

/-- Settles O28: the answer is the count, which the invariant keeps below C and so within ten bits. -/
theorem lenAnswersTheCount : Obligations.LenAnswersTheCount := by
  unfold Obligations.LenAnswersTheCount
  refine ⟨fun d => commandWord_no_imm 0x4#4 d.bit, fun d s => ?_, fun d s hs => ?_⟩
  · rw [exec_len, finish_eq, respWord_ok, countValue]
  · obtain ⟨hbuf, -⟩ := hs
    obtain ⟨hle, -⟩ := hbuf.buffer d
    exact ⟨(BitVec.toNat_ofNat ..).trans (Nat.mod_eq_of_lt (hbuf.count_lt_two_pow d)), hle⟩

/-- Settles O29: the answer is the stored flag, which the invariant ties to the count. -/
theorem isFullAnswersTheFlag : Obligations.IsFullAnswersTheFlag := by
  unfold Obligations.IsFullAnswersTheFlag
  refine ⟨fun d => commandWord_no_imm 0x5#4 d.bit, fun d s => ?_, fun d s hs => ?_⟩
  · rw [exec_isFull, finish_eq, respWord_flagValue]
  · obtain ⟨hbuf, -⟩ := hs
    exact (hbuf.buffer d).full_iff

/-- Settles O30: the answer is the flag computed from the count. -/
theorem isEmptyAnswersCountZero : Obligations.IsEmptyAnswersCountZero := by
  unfold Obligations.IsEmptyAnswersCountZero
  refine ⟨fun d => commandWord_no_imm 0x6#4 d.bit, fun d s => ?_⟩
  simp only [exec_isEmpty, finish_eq, respWord_flagValue, isEmptyFlag, decide_eq_true_eq]

/-- Settles O31: the buffer written back differs in the callback bit only. -/
theorem setEventWritesTheCallbackBit : Obligations.SetEventWritesTheCallbackBit := by
  unfold Obligations.SetEventWritesTheCallbackBit
  intro d en s
  exact ⟨_, exec_setEvent en, by simp, fun d' hd => resolve_finish_setBuffer_other hd .., finish_setBuffer ..⟩

end Sys2Proof.Machine

namespace Sys2Proof.Machine

/-! ## Transport: the micro-step a command takes (spec/41_transport.md) -/

section
variable {b n m : Byte} {q : Buffer} {bs seq : List Byte} {len : Nat} {s : State}

theorem exec_writeByte_first (hu : s.ustep ≠ .w2) : exec (.writeByte b) s = writeByteW1 b s := by
  show execWriteByte b s = _
  unfold execWriteByte
  split
  · next h => exact absurd h hu
  all_goals rfl

theorem exec_writeByte_second (hu : s.ustep = .w2) :
    exec (.writeByte b) s = .next (finish .ok 0#10 1 { s with txIntEn := true }) := by
  show execWriteByte b s = _
  rw [execWriteByte, hu]
  rfl

theorem exec_writeLine_first (hl : linePayload n s = some bs) (h1 : s.ustep ≠ .w1) (h2 : s.ustep ≠ .w2) :
    exec (.writeLine n) s = writeLineL0 (lineBytes s bs) (1 + n.toNat) s := by
  show execWriteLine n s = _
  rw [execWriteLine, hl]
  dsimp only
  split
  · next h => exact absurd h h1
  · next h => exact absurd h h2
  all_goals rfl

theorem exec_writeLine_w1 (hl : linePayload n s = some bs) (hu : s.ustep = .w1) :
    exec (.writeLine n) s = writeLineW1 (lineBytes s bs) (1 + n.toNat) s := by
  show execWriteLine n s = _
  rw [execWriteLine, hl, hu]

theorem exec_writeLine_w2 (hl : linePayload n s = some bs) (hu : s.ustep = .w2) : exec (.writeLine n) s =
    .next (writeLineNext (lineBytes s bs).length (1 + n.toNat) { s with txIntEn := true, wlIdx := s.wlIdx + 1 }) := by
  show execWriteLine n s = _
  rw [execWriteLine, hl, hu]
  rfl

theorem exec_readLine_first (hu : s.ustep ≠ .l2) : exec (.readLine m) s = readLineL1 s := by
  show execReadLine m s = _
  unfold execReadLine
  split
  · next h => exact absurd h hu
  all_goals rfl

theorem exec_readLine_loop (hu : s.ustep = .l2) : exec (.readLine m) s = readLineL2 m s := by
  show execReadLine m s = _
  rw [execReadLine, hu]

/-! ## Transport: the branches of each micro-step -/

theorem writeByteW1_of_uninit (hi : s.init = false) : writeByteW1 b s = .next (raiseFault .uninit s) := by
  simp [writeByteW1, hi]

theorem writeByteW1_of_off (hi : s.init = true) (htx : s.txen = false) :
    writeByteW1 b s = .refused .transmitDisabled := by
  simp [writeByteW1, hi, htx]

theorem writeByteW1_of_ok (hi : s.init = true) (htx : s.txen = true) (hq : s.tx.push s.params.capacity b = .ok q) :
    writeByteW1 b s = .next { s with tx := q, ustep := .w2 } := by
  simp [writeByteW1, hi, htx, hq]

theorem writeByteW1_of_full (hi : s.init = true) (htx : s.txen = true) (hf : s.tx.full = true) :
    writeByteW1 b s = .next (finish .bufferFull 0#10 1 s) := by
  simp [writeByteW1, hi, htx, push_bufferFull_iff.mpr hf]

theorem writeLineL0_of_uninit (hi : s.init = false) : writeLineL0 seq len s = .next (raiseFault .uninit s) := by
  simp [writeLineL0, hi]

theorem writeLineL0_of_off (hi : s.init = true) (htx : s.txen = false) :
    writeLineL0 seq len s = .refused .transmitDisabled := by
  simp [writeLineL0, hi, htx]

theorem writeLineL0_of_nil (hi : s.init = true) (htx : s.txen = true) :
    writeLineL0 [] len s = .next (finish .ok 0#10 len { s with wlIdx := 0, wlEnq := 0 }) := by
  simp [writeLineL0, hi, htx]

theorem writeLineL0_of_ne_nil (hi : s.init = true) (htx : s.txen = true) (hs : seq ≠ []) :
    writeLineL0 seq len s = writeLineW1 seq len { s with wlIdx := 0, wlEnq := 0 } := by
  simp [writeLineL0, hi, htx, hs]

theorem writeLineW1_of_ok (hb : seq[s.wlIdx]? = some b) (hq : s.tx.push s.params.capacity b = .ok q) :
    writeLineW1 seq len s = .next { s with tx := q, wlEnq := s.wlEnq + 1, ustep := .w2 } := by
  rw [writeLineW1, hb]
  dsimp only
  rw [hq]

theorem writeLineW1_of_full (hb : seq[s.wlIdx]? = some b) (hf : s.tx.full = true) :
    writeLineW1 seq len s = .next (writeLineNext seq.length len { s with wlIdx := s.wlIdx + 1 }) := by
  rw [writeLineW1, hb]
  dsimp only
  rw [push_bufferFull_iff.mpr hf]

/-- W1 overwrites `ustep` and does not read it. -/
theorem writeLineW1_ustep (u : UStep) : writeLineW1 seq len { s with ustep := u } = writeLineW1 seq len s := by
  unfold writeLineW1
  dsimp only
  split
  · rfl
  · split <;> rfl

theorem exec_readByte_of_uninit (hi : s.init = false) : exec .readByte s = .next (raiseFault .uninit s) := by
  show execReadByte s = _
  simp [execReadByte, hi]

theorem exec_readByte_of_ok (hi : s.init = true) (hq : s.rx.pop s.params.capacity = .ok b q) :
    exec .readByte s = .next (finish .ok (byteValue b) 1 { s with rx := q }) := by
  show execReadByte s = _
  simp [execReadByte, hi, hq]

theorem exec_readByte_of_empty (hi : s.init = true) (hc : s.rx.count = 0) :
    exec .readByte s = .next (finish .bufferEmpty 0#10 1 s) := by
  show execReadByte s = _
  simp [execReadByte, hi, pop_bufferEmpty_iff.mpr hc]

theorem readLineL1_of_uninit (hi : s.init = false) : readLineL1 s = .next (raiseFault .uninit s) := by
  simp [readLineL1, hi]

theorem readLineL1_of_empty (hi : s.init = true) (hc : s.rx.count = 0) :
    readLineL1 s = .next (finish .bufferEmpty 0#10 1 s) := by
  simp [readLineL1, hi, hc]

theorem readLineL1_of_held (hi : s.init = true) (hc : s.rx.count ≠ 0) :
    readLineL1 s = .next { s with rlEmitted := 0, ustep := .l2 } := by
  simp [readLineL1, hi, hc]

theorem readLineL2_of_empty (hc : s.rx.count = 0) : readLineL2 m s =
    .next (finish .ok (countValue s.rlEmitted) 1 (respond .more (byteValue s.params.readTerm) s)) := by
  rw [readLineL2, pop_bufferEmpty_iff.mpr hc]

theorem readLineL2_of_no_room (hq : s.rx.pop s.params.capacity = .ok b q) (hm : s.rlEmitted + 2 > m.toNat) :
    readLineL2 m s = .next (raiseFault .lineCap s) := by
  rw [readLineL2, hq]
  exact if_pos hm

theorem readLineL2_of_room (hq : s.rx.pop s.params.capacity = .ok b q) (hm : s.rlEmitted + 2 ≤ m.toNat) :
    readLineL2 m s = .next (respond .more (byteValue b) { s with rx := q, rlEmitted := s.rlEmitted + 1 }) := by
  rw [readLineL2, hq]
  exact if_neg hm.not_gt

theorem exec_initTransport_of_init {cfg : TransportConfig} (hi : s.init = true) :
    exec (.initTransport cfg) s = .next (raiseFault .reinit s) :=
  if_pos hi

theorem exec_initTransport_of_gie {cfg : TransportConfig} (hi : s.init = false) (hg : s.gie = true) :
    exec (.initTransport cfg) s = .next (raiseFault .initGie s) := by
  show execInitialize cfg s = _
  simp [execInitialize, hi, hg]

end

/-! ## Transport: what each micro-step does -/

theorem idle_ne {s : State} {u : UStep} (h : s.ustep = .idle) (hu : .idle ≠ u) : s.ustep ≠ u := h ▸ hu

/-- Settles O46: a PAYLOAD word at a command boundary is malformed. -/
theorem payloadOutOfPlaceFaults : Obligations.PayloadOutOfPlaceFaults := by
  unfold Obligations.PayloadOutOfPlaceFaults
  intro b s hs
  rw [exec_of_malformed (.inl rfl), raiseFault_of_none hs]

/-- Settles O45: the commands finish, and both interrupt requests ask for `gie` (O11). -/
theorem gieCommandsWriteTheGlobalEnable : Obligations.GieCommandsWriteTheGlobalEnable := by
  unfold Obligations.GieCommandsWriteTheGlobalEnable
  refine ⟨fun s => rfl, fun s => rfl, fun s hg => ?_⟩
  obtain ⟨-, hrx, htx, -⟩ := enableConditions s
  rw [Bool.eq_false_iff, Bool.eq_false_iff, Ne, hrx, Ne, htx]
  simp [hg]

/-- Settles O33: neither test of INITIALIZE holds, and what it then does is the state of the statement. -/
theorem initializeSetsUpTheTransport : Obligations.InitializeSetsUpTheTransport := by
  unfold Obligations.InitializeSetsUpTheTransport
  intro cfg s hi hg
  show execInitialize cfg s = _
  rw [execInitialize, if_neg (by simp [hi]), if_neg (by simp [hg])]
  rfl

/-- Settles O34: `init` is tested before `gie`. -/
theorem initializeOutOfOrderFaults : Obligations.InitializeOutOfOrderFaults := by
  unfold Obligations.InitializeOutOfOrderFaults
  refine fun cfg s hs => ⟨fun hi => ?_, fun hi hg => ?_⟩
  · rw [exec_initTransport_of_init hi, raiseFault_of_none hs]
  · rw [exec_initTransport_of_gie hi hg, raiseFault_of_none hs]

/-- Settles O23: each first micro-step tests `init` first, WRITE_LINE's after its payload. -/
theorem transportBeforeInitFaults : Obligations.TransportBeforeInitFaults := by
  unfold Obligations.TransportBeforeInitFaults
  intro s hi hu hs
  rw [← raiseFault_of_none hs, ← raiseFault_of_none hs]
  refine ⟨fun b => ?_, fun n hl => ?_, fun n hl => exec_of_malformed (.inr ⟨n, rfl, hl⟩),
    exec_readByte_of_uninit hi, fun m => ?_⟩
  · rw [exec_writeByte_first (idle_ne hu nofun), writeByteW1_of_uninit hi]
  · obtain ⟨bs, hbs⟩ := Option.ne_none_iff_exists'.mp hl
    rw [exec_writeLine_first hbs (idle_ne hu nofun) (idle_ne hu nofun), writeLineL0_of_uninit hi]
  · rw [exec_readLine_first (idle_ne hu nofun), readLineL1_of_uninit hi]

/-- Settles O24: with `init` set the first micro-step of either command tests `txen` next. -/
theorem writesWithTransmitterOffAreRefused : Obligations.WritesWithTransmitterOffAreRefused := by
  unfold Obligations.WritesWithTransmitterOffAreRefused
  refine fun s hi htx hu => ⟨fun b => ?_, fun n hl => ?_⟩
  · rw [exec_writeByte_first (idle_ne hu nofun), writeByteW1_of_off hi htx]
  · obtain ⟨bs, hbs⟩ := Option.ne_none_iff_exists'.mp hl
    rw [exec_writeLine_first hbs (idle_ne hu nofun) (idle_ne hu nofun), writeLineL0_of_off hi htx]

/-- A micro-step that pushes a byte to a Transmit buffer with room, and else only turns `s` into `u`, appends the byte
at the write cursor. -/
theorem exec_appends_transmit {i : Instr} {b : Byte} {s u : State} (hp : u.params = s.params)
    (hinv : Buffer.Inv s.params.capacity s.tx) (hf : s.tx.full = false)
    (hexec : ∀ q, s.tx.push s.params.capacity b = .ok q → exec i s = .next { u with tx := q }) :
    ∃ t, exec i s = .next t ∧ contents t .transmit = contents s .transmit ++ [b] ∧
      t.tx.wc = (s.tx.wc + 1) % s.params.capacity ∧ t.tx.rc = s.tx.rc ∧ t.tx.count = s.tx.count + 1 ∧
      (t.tx.full = true ↔ s.tx.count + 1 = s.params.capacity) ∧ t.tx.evEn = s.tx.evEn ∧
      cell t .transmit s.tx.wc = b ∧ (∀ j, j ≠ s.tx.wc → cell t .transmit j = cell s .transmit j) ∧
      t = { u with tx := t.tx } := by
  obtain ⟨q, hq⟩ := (push_total (b := b) hinv).resolve_right fun hr => by simp [push_bufferFull_iff.mp hr] at hf
  obtain ⟨hwc, hcount, hfull⟩ := push_registers hinv hq
  obtain ⟨hrc, hev⟩ := push_frame hq
  refine ⟨_, hexec q hq, ?_, hwc, hrc, hcount, hfull, hev, push_read_same hinv hq,
    fun j hj => push_read_other hq hj, rfl⟩
  show q.contents u.params.capacity = _
  rw [hp]
  exact push_contents hinv hq

/-- Settles O35: W1 past its tests is a push that succeeds. -/
theorem writeByteFirstPushes : Obligations.WriteByteFirstPushes := by
  unfold Obligations.WriteByteFirstPushes
  intro b s hi htx hu hinv hf
  refine exec_appends_transmit (u := { s with ustep := .w2 }) rfl hinv hf fun q hq => ?_
  rw [exec_writeByte_first (idle_ne hu nofun), writeByteW1_of_ok hi htx hq]

/-- Settles O36: W2 arms whatever the buffer holds, and a full buffer refuses the push of W1. -/
theorem writeByteThenArmsOrReportsFull : Obligations.WriteByteThenArmsOrReportsFull := by
  unfold Obligations.WriteByteThenArmsOrReportsFull
  refine fun b s => ⟨exec_writeByte_second, fun hi htx hu hf => ?_⟩
  rw [exec_writeByte_first (idle_ne hu nofun), writeByteW1_of_full hi htx hf]
  rfl

/-- NEXT of WRITE_LINE, whichever way it goes. -/
theorem writeLineNext_eq_ite (total len : Nat) (s : State) : writeLineNext total len s =
    if s.wlIdx = total then
      { s with resp := s.resp ++ [(0#6 ++ BitVec.ofNat 10 s.wlEnq : Word)], pc := s.pc + len, ustep := .idle }
    else { s with ustep := .w1 } := rfl

/-- Settles O39: W2 arms and goes to NEXT. -/
theorem writeLineArmsAfterEachByte : Obligations.WriteLineArmsAfterEachByte := by
  unfold Obligations.WriteLineArmsAfterEachByte
  intro n s bs hu hl
  rw [exec_writeLine_w2 hl hu, writeLineNext_eq_ite]
  rfl

/-- Settles O38: W1 pushes the byte at `wl_idx`, or finds the buffer full and goes to NEXT. -/
theorem writeLineLaterMicroStep : Obligations.WriteLineLaterMicroStep := by
  unfold Obligations.WriteLineLaterMicroStep
  intro n s bs b hu hl hb hinv
  change (lineBytes s bs)[s.wlIdx]? = some b at hb
  refine ⟨fun hf => ?_, fun hf => ?_⟩
  · refine exec_appends_transmit (u := { s with wlEnq := s.wlEnq + 1, ustep := .w2 }) rfl hinv hf fun q hq => ?_
    rw [exec_writeLine_w1 hl hu, writeLineW1_of_ok hb hq]
  · rw [exec_writeLine_w1 hl hu, writeLineW1_of_full hb hf, writeLineNext_eq_ite]
    rfl

/-- The state at the first byte of a line: L0 has cleared the progress registers, and W1 comes next. -/
def lineStart (s : State) : State := { s with wlIdx := 0, wlEnq := 0, ustep := .w1 }

/-- L0 with something to write does what W1 does at the first byte. -/
theorem exec_writeLine_lineStart {n : Byte} {s : State} {bs : List Byte} (hi : s.init = true) (htx : s.txen = true)
    (hu : s.ustep = .idle) (hl : linePayload n s = some bs) (hne : lineBytes s bs ≠ []) :
    exec (.writeLine n) s = exec (.writeLine n) (lineStart s) := by
  rw [exec_writeLine_first hl (idle_ne hu nofun) (idle_ne hu nofun), writeLineL0_of_ne_nil hi htx hne,
    exec_writeLine_w1 (s := lineStart s) hl rfl]
  exact (writeLineW1_ustep (s := { s with wlIdx := 0, wlEnq := 0 }) .w1).symm

/-- Settles O37: L0 ends an empty line, and at the first byte of another does what W1 does there (O38). -/
theorem writeLineFirstMicroStep : Obligations.WriteLineFirstMicroStep := by
  unfold Obligations.WriteLineFirstMicroStep
  intro n s bs hi htx hu hl hinv
  have first (b : Byte) (rest : List Byte) (hseq : bs ++ s.params.lineTerm = b :: rest) :
      exec (.writeLine n) s = exec (.writeLine n) (lineStart s) ∧ (bs ++ s.params.lineTerm)[0]? = some b := by
    refine ⟨exec_writeLine_lineStart hi htx hu hl ?_, by rw [hseq]; rfl⟩
    rw [lineBytes, hseq]
    exact List.cons_ne_nil b rest
  refine ⟨fun hnil => ?_, fun b rest hseq hf => ?_, fun b rest hseq hf => ?_⟩
  · rw [exec_writeLine_first hl (idle_ne hu nofun) (idle_ne hu nofun), lineBytes, hnil, writeLineL0_of_nil hi htx]
    rfl
  · obtain ⟨he, hb⟩ := first b rest hseq
    rw [he]
    exact (writeLineLaterMicroStep n (lineStart s) bs b rfl hl hb hinv).1 hf
  · obtain ⟨he, hb⟩ := first b rest hseq
    have hlast : 0 + 1 = (bs ++ s.params.lineTerm).length ↔ rest = [] := by
      rw [hseq, List.length_cons, ← List.length_eq_zero_iff]
      omega
    have hzero : (0#6 ++ BitVec.ofNat 10 (lineStart s).wlEnq : Word) = 0x0000#16 :=
      show (0#6 ++ BitVec.ofNat 10 0 : Word) = 0x0000#16 from rfl
    rw [he, (writeLineLaterMicroStep n (lineStart s) bs b rfl hl hb hinv).2 hf, hzero]
    exact congrArg _ (if_congr hlast rfl rfl)

/-! ## Transport: reading -/

/-- A buffer that holds a byte gives it up, as the read cursor, the count and `full` then say. -/
theorem pop_of_count_pos {cap : Nat} {q : Buffer} (hinv : Buffer.Inv cap q) (hc : 0 < q.count) : ∃ b,
    q.pop cap = .ok b { q with rc := (q.rc + 1) % cap, count := q.count - 1, full := false } := by
  obtain ⟨-, -, -, hr, -⟩ := hinv
  exact ⟨_, pop_ok_iff.mpr ⟨hc.ne', hr, rfl, rfl⟩⟩

/-- Settles O41: past the test of `init` the command is a pop. -/
theorem readByteTakesTheOldestByte : Obligations.ReadByteTakesTheOldestByte := by
  unfold Obligations.ReadByteTakesTheOldestByte
  refine fun s hi hinv => ⟨exec_readByte_of_empty hi, fun hc => ?_⟩
  obtain ⟨b, hq⟩ := pop_of_count_pos hinv hc
  refine ⟨_, b, exec_readByte_of_ok hi hq, pop_contents hq, ?_⟩
  rw [finish_eq, respWord_byteValue]
  rfl

/-- Settles O42: after `init` the first micro-step tests the count, and nothing about `m`. -/
theorem readLineTestsEmptinessFirst : Obligations.ReadLineTestsEmptinessFirst := by
  unfold Obligations.ReadLineTestsEmptinessFirst
  intro m s hi hu
  rw [exec_readLine_first (idle_ne hu nofun)]
  exact ⟨readLineL1_of_empty hi, fun hc => readLineL1_of_held hi hc.ne'⟩

/-- The end of the loop: the terminator, the count, and the end of the command. -/
theorem exec_readLine_end {m : Byte} {s : State} (hu : s.ustep = .l2) (hc : s.rx.count = 0) :
    exec (.readLine m) s = .next { s with
      resp := s.resp ++ [(0xC0#8 ++ s.params.readTerm : Word), (0#6 ++ BitVec.ofNat 10 s.rlEmitted : Word)]
      pc := s.pc + 1, ustep := .idle } := by
  rw [exec_readLine_loop hu, readLineL2_of_empty hc, finish_eq, respond_resp, respWord_byteValue, List.append_assoc]
  rfl

/-- One more byte of the loop. -/
theorem exec_readLine_byte {m b : Byte} {q : Buffer} {s : State} (hu : s.ustep = .l2)
    (hq : s.rx.pop s.params.capacity = .ok b q) (hm : s.rlEmitted + 2 ≤ m.toNat) :
    exec (.readLine m) s = .next { s with
      rx := q, rlEmitted := s.rlEmitted + 1, resp := s.resp ++ [(0xC0#8 ++ b : Word)] } := by
  rw [exec_readLine_loop hu, readLineL2_of_room hq hm, respond, respWord_byteValue]
  rfl

/-- The loop with a byte waiting that does not fit. -/
theorem exec_readLine_lineCap {m : Byte} {s : State} (hu : s.ustep = .l2) (hs : s.fault = none)
    (hinv : Buffer.Inv s.params.capacity s.rx) (hc : 0 < s.rx.count) (hm : s.rlEmitted + 2 > m.toNat) :
    exec (.readLine m) s = .next { s with fault := some .lineCap } := by
  obtain ⟨b, hq⟩ := pop_of_count_pos hinv hc
  rw [exec_readLine_loop hu, readLineL2_of_no_room hq hm, raiseFault_of_none hs]

/-- Settles O43: the pop finds the buffer empty, or a byte, which fits with the terminator or does not. -/
theorem readLineLoopMicroStep : Obligations.ReadLineLoopMicroStep := by
  unfold Obligations.ReadLineLoopMicroStep
  refine fun m s hu hs hinv => ⟨exec_readLine_end hu, exec_readLine_lineCap hu hs hinv, fun hc hm => ?_⟩
  obtain ⟨b, hq⟩ := pop_of_count_pos hinv hc
  exact ⟨_, b, exec_readLine_byte hu hq hm, pop_contents hq, rfl⟩

/-! ## Transport: the micro-steps of one command in a row -/

theorem execTimes_succ {i : Instr} {k : Nat} {s t : State} (h : exec i s = .next t) :
    execTimes i (k + 1) s = execTimes i k t := by
  rw [execTimes, h]

theorem execTimes_add {i : Instr} {j : Nat} (k : Nat) {s t : State} (h : execTimes i j s = .next t) :
    execTimes i (j + k) s = execTimes i k t := by
  induction j generalizing s with
  | zero =>
    cases h
    rw [Nat.zero_add]
  | succ j ih =>
    rw [execTimes] at h
    split at h
    · next u hu =>
      rw [Nat.add_right_comm, execTimes_succ hu]
      exact ih h
    · cases h
    · cases h

/-- Where the first micro-step is the same the whole run is. -/
theorem execTimes_congr {i : Instr} {s t : State} (h : exec i s = exec i t) (k : Nat) :
    execTimes i (k + 1) s = execTimes i (k + 1) t := by
  rw [execTimes, execTimes, h]

/-! ## Transport: a whole READ_LINE (spec/41_transport.md R113, R114) -/

/-- The state when the loop of READ_LINE has delivered the bytes `bs`. -/
def delivered (bs : List Byte) (s : State) : State :=
  { s with
    rx := { s.rx with
      rc := (s.rx.rc + bs.length) % s.params.capacity, count := s.rx.count - bs.length,
      full := s.rx.full && decide (bs.length = 0) }
    rlEmitted := s.rlEmitted + bs.length, resp := s.resp ++ bs.map (fun b => (0xC0#8 ++ b : Word)) }

theorem delivered_nil {s : State} (hr : s.rx.rc < s.params.capacity) : delivered [] s = s := by
  simp [delivered, Nat.mod_eq_of_lt hr]

/-- Delivering a byte and then `bs` delivers them all. -/
theorem delivered_cons (b : Byte) (bs : List Byte) (s : State) : delivered bs { s with
      rx := { s.rx with rc := (s.rx.rc + 1) % s.params.capacity, count := s.rx.count - 1, full := false }
      rlEmitted := s.rlEmitted + 1, resp := s.resp ++ [(0xC0#8 ++ b : Word)] } = delivered (b :: bs) s := by
  simp [delivered, Nat.add_assoc, Nat.add_comm, Nat.sub_sub]

/-- With no arrivals the loop delivers the first bytes of the contents, as many as the destination takes beside the
terminator, and the rest stays in the buffer. -/
theorem execTimes_readLine_deliver {m : Byte} {bs rest : List Byte} {s : State} (hu : s.ustep = .l2)
    (hinv : Buffer.Inv s.params.capacity s.rx) (hc : contents s .receive = bs ++ rest)
    (hm : bs ≠ [] → s.rlEmitted + bs.length + 1 ≤ m.toNat) :
    execTimes (.readLine m) bs.length s = .next (delivered bs s) ∧
      Buffer.Inv s.params.capacity (delivered bs s).rx ∧ contents (delivered bs s) .receive = rest := by
  induction bs generalizing s with
  | nil =>
    obtain ⟨-, -, -, hr, -⟩ := id hinv
    rw [delivered_nil hr]
    exact ⟨rfl, hinv, hc⟩
  | cons b bs ih =>
    have hcount : s.rx.count = (bs ++ rest).length + 1 := by
      rw [← contents_length (cap := s.params.capacity)]
      exact congrArg List.length hc
    have hroom := hm (List.cons_ne_nil b bs)
    rw [List.length_cons] at hroom
    obtain ⟨b', hq⟩ := pop_of_count_pos hinv (by omega)
    obtain ⟨rfl, hrest⟩ := List.cons.inj (hc.symm.trans (pop_contents hq))
    rw [List.length_cons, execTimes_succ (exec_readLine_byte hu hq (by omega)), ← delivered_cons]
    exact ih hu (pop_inv hinv hq) hrest.symm fun _ => by dsimp only; omega

/-- The state at the first byte of a READ_LINE: L1 has passed its tests, and the loop comes next. -/
def loopStart (s : State) : State := { s with rlEmitted := 0, ustep := .l2 }

/-- A run of READ_LINE with no arrivals: L1, one micro-step for each byte that fits, and the last micro-step. -/
theorem execTimes_readLine {m : Byte} {bs rest : List Byte} {s t : State} (hi : s.init = true) (hu : s.ustep = .idle)
    (hinv : Buffer.Inv s.params.capacity s.rx) (hc : 0 < s.rx.count) (hbs : contents s .receive = bs ++ rest)
    (hm : bs ≠ [] → bs.length + 1 ≤ m.toNat)
    (hlast : Buffer.Inv s.params.capacity (delivered bs (loopStart s)).rx →
      exec (.readLine m) (delivered bs (loopStart s)) = .next t) :
    execTimes (.readLine m) (bs.length + 1 + 1) s = .next t ∧
      contents (delivered bs (loopStart s)) .receive = rest := by
  have hL1 : exec (.readLine m) s = .next (loopStart s) := (readLineTestsEmptinessFirst m s hi hu).2 hc
  obtain ⟨hrun, hinv', hrest⟩ := execTimes_readLine_deliver (m := m) (s := loopStart s) rfl hinv hbs
    fun h => by simpa [loopStart] using hm h
  rw [execTimes_succ hL1, execTimes_add 1 hrun, execTimes_succ (hlast hinv')]
  exact ⟨rfl, hrest⟩

/-- Settles O44: the loop delivers what fits; then the buffer is empty, or the next byte does not fit. -/
theorem readLineDeliversTheHeldBytes : Obligations.ReadLineDeliversTheHeldBytes := by
  unfold Obligations.ReadLineDeliversTheHeldBytes
  intro m s hi hu hs hp hinv hc
  have hlen : (contents s .receive).length = s.rx.count := contents_length
  refine ⟨fun hfit => ?fits, fun hover => ?overflows⟩
  case fits =>
    obtain ⟨hrun, -⟩ := execTimes_readLine (m := m) hi hu hinv hc (List.append_nil _).symm (fun _ => by omega)
      fun _ => exec_readLine_end rfl (by simp [delivered, loopStart, hlen])
    have hcount : (0#6 ++ BitVec.ofNat 10 s.rx.count : Word) = BitVec.ofNat 16 s.rx.count :=
      respWord_countValue (by have := m.isLt; omega)
    exact ⟨_, hrun.trans (by simp [delivered, loopStart, hlen, hcount, hc.ne'])⟩
  case overflows =>
    have hk : ((contents s .receive).take (max m.toNat 1 - 1)).length = max m.toNat 1 - 1 := by
      rw [List.length_take]
      omega
    obtain ⟨hrun, hrest⟩ := execTimes_readLine (m := m) hi hu hinv hc
      (List.take_append_drop (max m.toNat 1 - 1) _).symm
      (fun h => by have := List.length_pos_iff.mpr h; omega) fun hinv' =>
      exec_readLine_lineCap rfl hs hinv' (by simp only [delivered, loopStart, hk]; omega)
        (by simp only [delivered, loopStart, hk]; omega)
    exact ⟨_, _, hrun, hrest, by simp [delivered, loopStart, hk]⟩

/-! ## Transport: a whole WRITE_LINE (spec/41_transport.md R108, R110) -/

/-- `q'` is `q` with the bytes `bs` appended, stored from the write cursor on. -/
structure Buffer.Gains (cap : Nat) (q : Buffer) (bs : List Byte) (q' : Buffer) : Prop where
  inv : Buffer.Inv cap q'
  contents : q'.contents cap = q.contents cap ++ bs
  evEn : q'.evEn = q.evEn
  rc : q'.rc = q.rc
  wc : q'.wc = (q.wc + bs.length) % cap
  count : q'.count = q.count + bs.length
  cells : ∀ j, (∀ x, x < bs.length → j ≠ (q.wc + x) % cap) → q'.storage.read j = q.storage.read j

theorem Buffer.Gains.nil {cap : Nat} {q : Buffer} (h : Buffer.Inv cap q) : q.Gains cap [] q := by
  obtain ⟨-, -, hw, -⟩ := id h
  exact ⟨h, by simp, rfl, rfl, (Nat.mod_eq_of_lt hw).symm, rfl, fun _ _ => rfl⟩

/-- A push and then more bytes. -/
theorem Buffer.Gains.cons {cap : Nat} {b : Byte} {bs : List Byte} {q q₁ q₂ : Buffer} (h : Buffer.Inv cap q)
    (hp : q.push cap b = .ok q₁) (hg : q₁.Gains cap bs q₂) : q.Gains cap (b :: bs) q₂ := by
  obtain ⟨hwc₁, hcount₁, -⟩ := push_registers h hp
  obtain ⟨hrc₁, hev₁⟩ := push_frame hp
  obtain ⟨hinv, hcont, hev, hrc, hwc, hcount, hcells⟩ := hg
  refine ⟨hinv, ?_, hev.trans hev₁, hrc.trans hrc₁, ?_, ?_, fun j hj => ?_⟩
  · rw [hcont, push_contents h hp, List.append_assoc, List.singleton_append]
  · rw [hwc, hwc₁, Nat.mod_add_mod, List.length_cons, Nat.add_assoc, Nat.add_comm 1]
  · rw [hcount, hcount₁, List.length_cons, Nat.add_assoc, Nat.add_comm 1]
  · have hfirst : j ≠ q.wc := by
      obtain ⟨-, -, hw, -⟩ := h
      simpa [Nat.mod_eq_of_lt hw] using hj 0 (Nat.succ_pos _)
    rw [hcells j fun x hx => ?_, push_read_other hp hfirst]
    rw [hwc₁, Nat.mod_add_mod, Nat.add_assoc, Nat.add_comm 1]
    exact hj (x + 1) (Nat.succ_lt_succ hx)

/-- The bytes of a line that a buffer has room for. -/
def Buffer.fitting (cap : Nat) (q : Buffer) (bs : List Byte) : List Byte := bs.take (cap - q.count)

/-- With room the first byte fits, and the rest has one place less. -/
theorem fitting_cons_of_push {cap : Nat} {b : Byte} {bs : List Byte} {q q₁ : Buffer} (h : Buffer.Inv cap q)
    (hp : q.push cap b = .ok q₁) : q.fitting cap (b :: bs) = b :: q₁.fitting cap bs := by
  obtain ⟨-, hcount, -⟩ := push_registers h hp
  obtain ⟨hf, -⟩ := push_ok_iff.mp hp
  have hlt := h.count_lt hf
  rw [Buffer.fitting, Buffer.fitting, hcount, show cap - q.count = cap - (q.count + 1) + 1 by omega,
    List.take_succ_cons]

theorem fitting_of_full {cap : Nat} {q : Buffer} (bs : List Byte) (h : Buffer.Inv cap q) (hf : q.full = true) :
    q.fitting cap bs = [] := by
  rw [Buffer.fitting, h.full_iff.mp hf, Nat.sub_self, List.take_zero]

/-- The state when `r` more bytes of a line have been attempted, of which the `k` in `q` went in. -/
def lineAttempted (r k : Nat) (q : Buffer) (s : State) : State :=
  { s with tx := q, txIntEn := s.txIntEn || decide (0 < k), wlIdx := s.wlIdx + r, wlEnq := s.wlEnq + k }

@[simp] theorem lineAttempted_params (r k : Nat) (q : Buffer) (s : State) :
    (lineAttempted r k q s).params = s.params := rfl
@[simp] theorem lineAttempted_tx (r k : Nat) (q : Buffer) (s : State) : (lineAttempted r k q s).tx = q := rfl
@[simp] theorem lineAttempted_wlEnq (r k : Nat) (q : Buffer) (s : State) :
    (lineAttempted r k q s).wlEnq = s.wlEnq + k := rfl

theorem lineAttempted_lineAttempted (r r' k k' : Nat) (q q' : Buffer) (s : State) :
    lineAttempted r k q (lineAttempted r' k' q' s) = lineAttempted (r + r') (k + k') q s := by
  have hk : (decide (0 < k') || decide (0 < k)) = decide (0 < k + k') := by
    rw [← Bool.decide_or, decide_eq_decide]
    omega
  simp only [lineAttempted, Bool.or_assoc, hk, Nat.add_assoc, Nat.add_comm r, Nat.add_comm k]

/-- NEXT overwrites `ustep` and does not read it. -/
theorem writeLineNext_ustep (total len : Nat) (s : State) (u : UStep) :
    writeLineNext total len { s with ustep := u } = writeLineNext total len s := by
  simp only [writeLineNext_eq]

/-- Inside the line NEXT goes on to W1. -/
theorem writeLineNext_of_lt {total len : Nat} {s : State} (h : s.wlIdx < total) :
    writeLineNext total len s = { s with ustep := .w1 } :=
  if_neg h.ne

section
variable {n b : Byte} {bs : List Byte} {q : Buffer} {s : State} (hl : linePayload n s = some bs)
  (hb : (lineBytes s bs)[s.wlIdx]? = some b)
include hl hb

/-- From NEXT, a byte that goes in: W1, W2, and NEXT again. -/
theorem execTimes_writeLine_kept (hq : s.tx.push s.params.capacity b = .ok q) (k : Nat) :
    execTimes (.writeLine n) (k + 1 + 1) (writeLineNext (lineBytes s bs).length (1 + n.toNat) s) =
      execTimes (.writeLine n) k (writeLineNext (lineBytes s bs).length (1 + n.toNat) (lineAttempted 1 1 q s)) := by
  have hW1 := (exec_writeLine_w1 (s := { s with ustep := .w1 }) hl rfl).trans (writeLineW1_of_ok hb hq)
  have hW2 := exec_writeLine_w2 (s := { s with tx := q, wlEnq := s.wlEnq + 1, ustep := .w2 }) hl rfl
  obtain ⟨hlt, -⟩ := List.getElem?_eq_some_iff.mp hb
  rw [writeLineNext_of_lt hlt, execTimes_succ hW1, execTimes_succ hW2,
    ← writeLineNext_ustep _ _ (lineAttempted 1 1 q s) .w2]
  simp only [lineAttempted, Nat.one_pos, decide_true, Bool.or_true]
  rfl

/-- From NEXT, a byte that is dropped: W1, and NEXT again. -/
theorem execTimes_writeLine_dropped (hf : s.tx.full = true) (k : Nat) :
    execTimes (.writeLine n) (k + 1) (writeLineNext (lineBytes s bs).length (1 + n.toNat) s) =
      execTimes (.writeLine n) k (writeLineNext (lineBytes s bs).length (1 + n.toNat) (lineAttempted 1 0 s.tx s)) := by
  have hW1 := (exec_writeLine_w1 (s := { s with ustep := .w1 }) hl rfl).trans (writeLineW1_of_full hb hf)
  obtain ⟨hlt, -⟩ := List.getElem?_eq_some_iff.mp hb
  rw [writeLineNext_of_lt hlt, execTimes_succ hW1, ← writeLineNext_ustep _ _ (lineAttempted 1 0 s.tx s) .w1]
  simp only [lineAttempted, Nat.lt_irrefl, decide_false, Bool.or_false]
  rfl

end

/-- With no other agent between them the micro-steps from NEXT on attempt the bytes from `wl_idx` to the end of the
line, enqueue those that fit, and end the command. -/
theorem execTimes_writeLine_rest {n : Byte} {bs rest : List Byte} {s : State} (hl : linePayload n s = some bs)
    (hrest : (lineBytes s bs).drop s.wlIdx = rest) (hle : s.wlIdx ≤ (lineBytes s bs).length)
    (hinv : Buffer.Inv s.params.capacity s.tx) :
    let k := (s.tx.fitting s.params.capacity rest).length
    ∃ steps q, s.tx.Gains s.params.capacity (s.tx.fitting s.params.capacity rest) q ∧
      execTimes (.writeLine n) steps (writeLineNext (lineBytes s bs).length (1 + n.toNat) s) =
        .next (finish .ok (countValue (s.wlEnq + k)) (1 + n.toNat) (lineAttempted rest.length k q s)) := by
  induction rest generalizing s with
  | nil =>
    have hend : s.wlIdx = (lineBytes s bs).length := Nat.le_antisymm hle (List.drop_eq_nil_iff.mp hrest)
    have hnone : s.tx.fitting s.params.capacity [] = [] := List.take_nil
    rw [hnone]
    refine ⟨0, s.tx, .nil hinv, ?_⟩
    rw [writeLineNext, if_pos hend]
    simp [execTimes, lineAttempted]
  | cons b rest ih =>
    have hb : (lineBytes s bs)[s.wlIdx]? = some b := by
      rw [← List.head?_drop, hrest, List.head?_cons]
    have hrest' : (lineBytes s bs).drop (s.wlIdx + 1) = rest := by
      rw [← List.tail_drop, hrest, List.tail_cons]
    obtain ⟨hlt, -⟩ := List.getElem?_eq_some_iff.mp hb
    obtain ⟨q, hq⟩ | hfull := push_total (b := b) hinv
    · obtain ⟨steps, q', hg, hrun⟩ := ih (s := lineAttempted 1 1 q s) hl hrest' hlt (push_inv hinv hq)
      simp only [lineAttempted_params, lineAttempted_tx, lineAttempted_wlEnq, lineAttempted_lineAttempted]
        at hg hrun
      rw [Nat.add_right_comm s.wlEnq] at hrun
      rw [fitting_cons_of_push hinv hq]
      exact ⟨steps + 1 + 1, q', hg.cons hinv hq, (execTimes_writeLine_kept hl hb hq steps).trans hrun⟩
    · have hf := push_bufferFull_iff.mp hfull
      obtain ⟨steps, q', hg, hrun⟩ := ih (s := lineAttempted 1 0 s.tx s) hl hrest' hlt hinv
      simp only [lineAttempted_params, lineAttempted_tx, lineAttempted_wlEnq, lineAttempted_lineAttempted,
        fitting_of_full _ hinv hf] at hg hrun ⊢
      exact ⟨steps + 1, q', hg, (execTimes_writeLine_dropped hl hb hf steps).trans hrun⟩

/-- A run to the end of the line from NEXT at the first byte is one from L0 too, which goes to NEXT in the same
micro-step. -/
theorem execTimes_writeLine_of_next {n : Byte} {steps : Nat} {s t : State} {bs : List Byte} (hi : s.init = true)
    (htx : s.txen = true) (hu : s.ustep = .idle) (hl : linePayload n s = some bs) (ht : t.ustep = .idle)
    (h : execTimes (.writeLine n) steps
      (writeLineNext (lineBytes s bs).length (1 + n.toNat) { s with wlIdx := 0, wlEnq := 0 }) = .next t) :
    ∃ steps', execTimes (.writeLine n) steps' s = .next t := by
  by_cases hnil : lineBytes s bs = []
  · have hL0 := exec_writeLine_first hl (idle_ne hu nofun) (idle_ne hu nofun)
    rw [hnil, writeLineL0_of_nil hi htx] at hL0
    rw [hnil] at h
    exact ⟨steps + 1, (execTimes_succ hL0).trans h⟩
  · have hmore : writeLineNext (lineBytes s bs).length (1 + n.toNat) { s with wlIdx := 0, wlEnq := 0 } = lineStart s :=
      if_neg (List.length_pos_iff.mpr hnil).ne
    rw [hmore] at h
    cases steps with
    | zero =>
      cases h
      cases ht
    | succ steps =>
      exact ⟨steps + 1, (execTimes_congr (exec_writeLine_lineStart hi htx hu hl hnil) steps).trans h⟩

/-- Settles O40: L0 goes to NEXT at the first byte, and from there the run attempts the whole line. -/
theorem writeLineEnqueuesWhatFits : Obligations.WriteLineEnqueuesWhatFits := by
  unfold Obligations.WriteLineEnqueuesWhatFits
  intro n s bs hi htx hu hp hinv hl seq k
  have hfit : s.tx.fitting s.params.capacity seq = seq.take k := by
    rw [Buffer.fitting, List.take_eq_take_iff]
    omega
  have hk : (seq.take k).length = k := by
    rw [List.length_take]
    omega
  have hk10 : k < 1024 := by
    have hseq : seq.length ≤ 257 := lineBytes_length_le hp hl
    omega
  obtain ⟨steps, q, hg, hrun⟩ := execTimes_writeLine_rest (s := { s with wlIdx := 0, wlEnq := 0 }) hl rfl
    (Nat.zero_le _) hinv
  obtain ⟨steps, hrun⟩ := execTimes_writeLine_of_next hi htx hu hl rfl hrun
  change s.tx.Gains s.params.capacity (s.tx.fitting s.params.capacity seq) q at hg
  rw [hfit] at hg
  obtain ⟨hinv', hcont, hev, hrc, hwc, hcount, hcells⟩ := hg
  rw [hk] at hwc hcount hcells
  refine ⟨steps, _, hrun, hcont, hev, hrc, hwc, hcount, ?_, hcells, ?_⟩
  · rw [← hcount]
    exact hinv'.full_iff
  · change finish .ok (countValue (0 + (s.tx.fitting s.params.capacity seq).length)) (1 + n.toNat)
      (lineAttempted seq.length (s.tx.fitting s.params.capacity seq).length q { s with wlIdx := 0, wlEnq := 0 }) = _
    rw [hfit, hk, Nat.zero_add, finish_eq, respWord_countValue hk10]
    simp [lineAttempted]

/-! ## Transport: where a step stops (spec/41_transport.md R107, spec/60_exceptions.md R157) -/

/-- An answer that is a next state, or the refusal of a write with the transmitter off. -/
def NextOrRefused (s : State) (o : Outcome) : Prop :=
  (∃ t, o = .next t) ∨ (o = .refused .transmitDisabled ∧ s.txen = false)

section
variable {b n : Byte} {bs seq : List Byte} {len : Nat} {s : State}

theorem exec_writeByte_nextOrRefused (hinv : Buffer.Inv s.params.capacity s.tx) :
    NextOrRefused s (exec (.writeByte b) s) := by
  by_cases hu : s.ustep = .w2
  · exact .inl ⟨_, exec_writeByte_second hu⟩
  rw [exec_writeByte_first hu]
  cases hi : s.init with
  | false => exact .inl ⟨_, writeByteW1_of_uninit hi⟩
  | true =>
    cases htx : s.txen with
    | false => exact .inr ⟨writeByteW1_of_off hi htx, htx⟩
    | true =>
      obtain ⟨q, hq⟩ | hfull := push_total (b := b) hinv
      · exact .inl ⟨_, writeByteW1_of_ok hi htx hq⟩
      · exact .inl ⟨_, writeByteW1_of_full hi htx (push_bufferFull_iff.mp hfull)⟩

theorem writeLineW1_total (hinv : Buffer.Inv s.params.capacity s.tx) (hk : s.wlIdx < seq.length) :
    ∃ t, writeLineW1 seq len s = .next t := by
  have hb := List.getElem?_eq_getElem hk
  obtain ⟨q, hq⟩ | hfull := push_total hinv
  · exact ⟨_, writeLineW1_of_ok hb hq⟩
  · exact ⟨_, writeLineW1_of_full hb (push_bufferFull_iff.mp hfull)⟩

theorem writeLineL0_nextOrRefused (hinv : Buffer.Inv s.params.capacity s.tx) :
    NextOrRefused s (writeLineL0 seq len s) := by
  cases hi : s.init with
  | false => exact .inl ⟨_, writeLineL0_of_uninit hi⟩
  | true =>
    cases htx : s.txen with
    | false => exact .inr ⟨writeLineL0_of_off hi htx, htx⟩
    | true =>
      by_cases hnil : seq = []
      · subst hnil
        exact .inl ⟨_, writeLineL0_of_nil hi htx⟩
      · rw [writeLineL0_of_ne_nil hi htx hnil]
        exact .inl (writeLineW1_total hinv (List.length_pos_iff.mpr hnil))

/-- Between the micro-steps of a line its progress registers point into it, so W1 finds its byte. -/
theorem exec_writeLine_nextOrRefused (hinv : Buffer.Inv s.params.capacity s.tx) (hf : fetch s = .ok (.writeLine n))
    (hp : progressOk s = true) : NextOrRefused s (exec (.writeLine n) s) := by
  cases hl : linePayload n s with
  | none => exact .inl ⟨_, exec_of_malformed (.inr ⟨n, rfl, hl⟩)⟩
  | some bs =>
    by_cases h1 : s.ustep = .w1
    · rw [exec_writeLine_w1 hl h1]
      obtain ⟨_, -, hline⟩ := lineProgress_of_progressOk hf (by simp [h1]) hp
      obtain ⟨bs', hl', hk, -⟩ := lineProgress_iff.mp hline
      cases hl.symm.trans hl'
      exact .inl (writeLineW1_total hinv hk)
    · by_cases h2 : s.ustep = .w2
      · exact .inl ⟨_, exec_writeLine_w2 hl h2⟩
      · rw [exec_writeLine_first hl h1 h2]
        exact writeLineL0_nextOrRefused hinv

theorem exec_readByte_total (hinv : Buffer.Inv s.params.capacity s.rx) : ∃ t, exec .readByte s = .next t := by
  cases hi : s.init with
  | false => exact ⟨_, exec_readByte_of_uninit hi⟩
  | true =>
    obtain ⟨b, q, hq⟩ | hempty := pop_total hinv
    · exact ⟨_, exec_readByte_of_ok hi hq⟩
    · exact ⟨_, exec_readByte_of_empty hi (pop_bufferEmpty_iff.mp hempty)⟩

theorem readLineL1_total : ∃ t, readLineL1 s = .next t := by
  cases hi : s.init with
  | false => exact ⟨_, readLineL1_of_uninit hi⟩
  | true =>
    by_cases hc : s.rx.count = 0
    · exact ⟨_, readLineL1_of_empty hi hc⟩
    · exact ⟨_, readLineL1_of_held hi hc⟩

theorem exec_readLine_total (m : Byte) (hinv : Buffer.Inv s.params.capacity s.rx) :
    ∃ t, exec (.readLine m) s = .next t := by
  by_cases hu : s.ustep = .l2
  · rw [exec_readLine_loop hu]
    obtain ⟨b, q, hq⟩ | hempty := pop_total hinv
    · by_cases hm : s.rlEmitted + 2 > m.toNat
      · exact ⟨_, readLineL2_of_no_room hq hm⟩
      · exact ⟨_, readLineL2_of_room hq (Nat.le_of_not_gt hm)⟩
    · exact ⟨_, readLineL2_of_empty (pop_bufferEmpty_iff.mp hempty)⟩
  · rw [exec_readLine_first hu]
    exact readLineL1_total

theorem exec_cbInit_total (d : Direction) (s : State) : ∃ t, exec (.cbInit d) s = .next t := by
  by_cases h : s.rxIntEn = true ∨ s.txIntEn = true
  · exact ⟨_, exec_cbInit_of_unmasked h⟩
  · obtain ⟨hrx, htx⟩ := not_or.mp h
    exact ⟨_, exec_cbInit_of_masked (Bool.eq_false_iff.mpr hrx) (Bool.eq_false_iff.mpr htx)⟩

theorem exec_push_total {d : Direction} (hinv : Buffer.Inv s.params.capacity (resolve d s)) :
    ∃ t, exec (.push d b) s = .next t := by
  obtain ⟨q, hq⟩ | hfull := push_total (b := b) hinv
  · exact ⟨_, exec_push_of_ok hq⟩
  · exact ⟨_, exec_push_of_full (push_bufferFull_iff.mp hfull)⟩

theorem exec_pop_total {d : Direction} (hinv : Buffer.Inv s.params.capacity (resolve d s)) :
    ∃ t, exec (.pop d) s = .next t := by
  obtain ⟨b, q, hq⟩ | hempty := pop_total hinv
  · exact ⟨_, exec_pop_of_ok hq⟩
  · exact ⟨_, exec_pop_of_count_zero (pop_bufferEmpty_iff.mp hempty)⟩

theorem exec_initTransport_total (cfg : TransportConfig) (s : State) :
    ∃ t, exec (.initTransport cfg) s = .next t := by
  cases hi : s.init with
  | true => exact ⟨_, exec_initTransport_of_init hi⟩
  | false =>
    cases hg : s.gie with
    | true => exact ⟨_, exec_initTransport_of_gie hi hg⟩
    | false => exact ⟨_, initializeSetsUpTheTransport cfg s hi hg⟩

end

/-- Under the invariant the command at `pc` takes a micro-step, unless it is a write that meets a disabled
transmitter. -/
theorem exec_next_or_refused {i : Instr} {s : State} (hs : s.Inv) (hf : fetch s = .ok i) :
    (∃ t, exec i s = .next t) ∨ (exec i s = .refused .transmitDisabled ∧ s.txen = false ∧
      ((∃ b, i = .writeByte b) ∨ ∃ n, i = .writeLine n)) := by
  obtain ⟨hbuf, -, -, hp⟩ := hs
  cases i with
  | writeByte b =>
    exact (exec_writeByte_nextOrRefused (hbuf.buffer .transmit)).imp_right
      fun ⟨hr, ho⟩ => ⟨hr, ho, .inl ⟨b, rfl⟩⟩
  | writeLine n =>
    exact (exec_writeLine_nextOrRefused (hbuf.buffer .transmit) hf hp).imp_right
      fun ⟨hr, ho⟩ => ⟨hr, ho, .inr ⟨n, rfl⟩⟩
  | cbInit d => exact .inl (exec_cbInit_total d s)
  | push d b => exact .inl (exec_push_total (hbuf.buffer d))
  | pop d => exact .inl (exec_pop_total (hbuf.buffer d))
  | initTransport cfg => exact .inl (exec_initTransport_total cfg s)
  | readByte => exact .inl (exec_readByte_total (hbuf.buffer .receive))
  | readLine m => exact .inl (exec_readLine_total m (hbuf.buffer .receive))
  | len d | isFull d | isEmpty d | setEvent d en | gieClr | gieSet | payload b => exact .inl ⟨_, rfl⟩

theorem rxh_total {s : State} (hinv : Buffer.Inv s.params.capacity s.rx) : ∃ t, rxh s = .next t := by
  simp only [rxh, hardwareRead_fst, hardwareRead_snd]
  obtain ⟨q, hq⟩ | hfull := push_total (b := s.rxData) hinv
  · rw [hq]
    exact ⟨_, rfl⟩
  · rw [hfull]
    exact ⟨_, rfl⟩

/-- TXH writes an empty data register only, so its write is not refused. -/
theorem txh_total {s : State} (hinv : Buffer.Inv s.params.capacity s.tx) (hd : s.dre = true) :
    ∃ t, txh s = .next t := by
  rw [txh]
  obtain ⟨b, q, hq⟩ | hempty := pop_total hinv
  · rw [hq]
    simp only [hardwareWrite, hd]
    exact ⟨_, rfl⟩
  · rw [hempty]
    exact ⟨_, rfl⟩

theorem wireRx_total (s : State) : ∃ t, wireRx s = .next t := by
  unfold wireRx
  split
  · exact ⟨_, rfl⟩
  · exact ⟨_, rfl⟩

/-- Under the invariant the handlers and the line take every step they are enabled for (R157). -/
theorem agentStep_total {a : Agent} {s : State} (hs : s.BuffersInv) (ha : a ≠ .normal) (he : enabled a s = true) :
    ∃ t, agentStep a s = .next t := by
  obtain ⟨-, hrx, htx⟩ := hs
  cases a with
  | normal => exact absurd rfl ha
  | rxh => exact rxh_total hrx
  | txh =>
    obtain ⟨-, -, htxh, -⟩ := enableConditions s
    obtain ⟨-, -, hd, -⟩ := htxh.mp he
    exact txh_total htx hd
  | wireRx => exact wireRx_total s
  | wireTx => exact ⟨_, rfl⟩

/-- Settles O18: with a turn to take the handlers and the line step, and NORMAL does but at a refused write; without one
no agent is enabled (O10). -/
theorem invariantStatesStopOnlyAsTheSpecSays : Obligations.InvariantStatesStopOnlyAsTheSpecSays := by
  unfold Obligations.InvariantStatesStopOnlyAsTheSpecSays
  intro s hs
  cases hn : nextTurn s with
  | none => exact .inr (.inl ((runIsOverIffNoAgentIsEnabled s).mp hn))
  | some turn =>
    obtain ⟨a, s1⟩ := turn
    obtain ⟨he, hs1⟩ := nextTurn_some hn
    have hstep : step s = agentStep a s1 := by rw [step, hn]
    -- The turn used up changes no register, so `s1` meets the invariant, enables `a` and fetches what `s` does.
    have hinv : s1.Inv := hs1 ▸ hs
    have he1 : enabled a s1 = true := by rw [hs1, enabled_turns, he]
    have hfetch : fetch s1 = fetch s := by rw [hs1]; rfl
    have htxen : s1.txen = s.txen := by rw [hs1]
    rw [hstep]
    by_cases ha : a = .normal
    · subst ha
      show (∃ t, normalStep s1 = .next t) ∨ _ ∨ (normalStep s1 = _ ∧ _)
      cases hf : fetch s1 with
      | error e => exact .inl ⟨raiseFault .illegal s1, by rw [normalStep, hf]⟩
      | ok i =>
        rw [normalStep_of_fetch hf, ← hfetch, hf, ← htxen]
        refine (exec_next_or_refused hinv hf).imp_right fun ⟨hr, ho, hw⟩ => .inr ⟨hr, ho, ?_⟩
        obtain ⟨b, rfl⟩ | ⟨n, rfl⟩ := hw
        · exact .inl ⟨b, rfl⟩
        · exact .inr ⟨n, rfl⟩
    · obtain ⟨hbuf, -⟩ := hinv
      exact .inl (agentStep_total hbuf ha he1)

end Sys2Proof.Machine

namespace Sys2Proof.Machine

/-! ## Glue: the bytes handed to the line side (spec/42_uart_glue.md R140) -/

section
variable {a : Agent} {s t : State}

theorem sentBytes_of_dre_false (h : s.dre = false) : sentBytes s = s.wireOut ++ [s.txData] := by
  simp [sentBytes, h]

theorem sentBytes_of_dre_true (h : s.dre = true) : sentBytes s = s.wireOut := by
  simp [sentBytes, h]

theorem sentBytes_congr (hw : t.wireOut = s.wireOut) (hd : t.dre = s.dre) (hx : t.txData = s.txData) :
    sentBytes t = sentBytes s := by
  rw [sentBytes, sentBytes, hw, hd, hx]

/-- TXH hands over the oldest byte of its buffer, or finds the buffer empty. -/
theorem txh_sentBytes (h : txh s = .next t) :
    (∃ b, contents s .transmit = b :: contents t .transmit ∧ sentBytes t = sentBytes s ++ [b]) ∨
    (contents s .transmit = [] ∧ sentBytes t = sentBytes s) := by
  obtain ⟨hc, rfl⟩ | ⟨b, q, hq, hd, rfl⟩ := txh_next h
  · exact .inr ⟨contents_of_count_zero hc, rfl⟩
  · refine .inl ⟨b, pop_contents hq, ?_⟩
    rw [sentBytes_of_dre_true hd, sentBytes_of_dre_false rfl]

/-- The shift moves the byte in the data register behind those on the line, where the sequence already has it. -/
theorem wireTx_sentBytes (hd : s.dre = false) (h : wireTx s = .next t) : sentBytes t = sentBytes s := by
  rw [wireTx_next h, sentBytes_of_dre_true rfl, sentBytes_of_dre_false hd]

/-- NORMAL touches nothing of the line side (O57). -/
theorem normalStep_sentBytes (h : normalStep s = .next t) : sentBytes t = sentBytes s := by
  obtain ⟨i, hf, -⟩ | rfl := normalStep_next h
  · rw [normalStep_of_fetch hf] at h
    obtain ⟨-, -, hd, hx, -, hw, -⟩ := commandsLeaveTheLineSideAlone i s t h
    exact sentBytes_congr hw hd hx
  · rfl

theorem agentStep_sentBytes (ha : a ≠ .txh) (he : enabled a s = true) (h : agentStep a s = .next t) :
    sentBytes t = sentBytes s := by
  cases a with
  | normal => exact normalStep_sentBytes h
  | rxh =>
    obtain ⟨ht, -⟩ := rxh_next h
    rw [ht]
    rfl
  | txh => exact absurd rfl ha
  | wireRx =>
    obtain ⟨ht, -⟩ := wireRx_next h
    rw [ht]
    rfl
  | wireTx =>
    obtain ⟨-, -, -, -, hshift⟩ := enableConditions s
    exact wireTx_sentBytes (hshift.mp he) h

end

/-- Settles O55: the turn is one agent's; only TXH's can hand over a byte, and it does unless its buffer is empty. -/
theorem lineCarriesThePoppedBytesInOrder : Obligations.LineCarriesThePoppedBytesInOrder := by
  unfold Obligations.LineCarriesThePoppedBytesInOrder
  intro s t _ h
  obtain ⟨a, turns, round, ⟨s1, hn⟩, he, hstep⟩ := step_next_turns h
  by_cases ha : a = .txh
  · subst ha
    obtain ⟨b, hb, hsent⟩ | ⟨hempty, hkept⟩ := txh_sentBytes hstep
    · exact ⟨fun _ _ _ => ⟨b, hb, hsent⟩,
        fun hempty => absurd (hb.symm.trans (hempty s1 hn)) (List.cons_ne_nil b _)⟩
    · exact ⟨fun _ _ hheld => absurd hempty hheld, fun _ => hkept⟩
  · have hkept := agentStep_sentBytes ha (by simpa using he) hstep
    refine ⟨fun s2 hn2 => ?_, fun _ => hkept⟩
    rw [hn] at hn2
    cases hn2
    exact absurd rfl ha

/-! ## Glue: the two steps of the line (spec/42_uart_glue.md R138, R139) -/

section
variable {b : Byte} {bs : List Byte} {s : State}

theorem rxArrive_of_none_waiting (h : s.rxc = false) : rxArrive b s = { s with rxData := b, rxc := true } := by
  simp [rxArrive, h]

theorem rxArrive_of_waiting (h : s.rxc = true) : rxArrive b s = s := by
  simp [rxArrive, h]

theorem wireRx_of_arrivals (h : s.arrivals = b :: bs) : wireRx s = .next (rxArrive b { s with arrivals := bs }) := by
  rw [wireRx, h]

theorem enabled_wireRx_of_arrivals (h : s.arrivals = b :: bs) : enabled .wireRx s = s.rxen := by
  simp [enabled, h]

end

/-- Settles O49: WIRE_RX is `rx_arrive` of the next byte, which tests `rxc`. -/
theorem arrivingByteIsTakenOrLost : Obligations.ArrivingByteIsTakenOrLost := by
  unfold Obligations.ArrivingByteIsTakenOrLost
  intro s b bs harr
  have hstep : agentStep .wireRx s = .next (rxArrive b { s with arrivals := bs }) := wireRx_of_arrivals harr
  exact ⟨enabled_wireRx_of_arrivals harr,
    fun hc => hstep.trans (congrArg _ (rxArrive_of_none_waiting hc)),
    fun hc => hstep.trans (congrArg _ (rxArrive_of_waiting hc))⟩

/-- Settles O50: both are what the model writes for WIRE_TX. -/
theorem shiftPutsTheByteOnTheLine : Obligations.ShiftPutsTheByteOnTheLine := by
  unfold Obligations.ShiftPutsTheByteOnTheLine
  exact fun s => ⟨rfl, rfl⟩

/-! ## Glue: the primitives of the contract (spec/42_uart_glue.md R130 to R136) -/

theorem hardwareWrite_of_dre_true (b : Byte) {s : State} (h : s.dre = true) :
    hardwareWrite b s = .next { s with txData := b, dre := false } := by
  simp [hardwareWrite, h]

theorem hardwareWrite_of_dre_false (b : Byte) {s : State} (h : s.dre = false) :
    hardwareWrite b s = .refused .dataRegisterBusy := by
  simp [hardwareWrite, h]

/-- Settles O51: of the five only `hardware_write` has a case to tell. -/
theorem contractPrimitives : Obligations.ContractPrimitives := by
  unfold Obligations.ContractPrimitives
  exact ⟨fun b _ => hardwareWrite_of_dre_true b, fun b _ => hardwareWrite_of_dre_false b, fun _ => rfl,
    fun _ _ _ => rfl, fun _ => rfl, programBaud_eq⟩

/-! ## Glue: the frame of a byte (spec/42_uart_glue.md R141, R142) -/

/-- The low `n` bits of a number, least significant first, add up to it modulo `2 ^ n`. -/
theorem foldr_testBit (n x : Nat) :
    ((List.range n).map x.testBit).foldr (fun b v => b.toNat + 2 * v) 0 = x % 2 ^ n := by
  induction n generalizing x with
  | zero => simp [Nat.mod_one]
  | succ n ih =>
    have htail : (List.range n).map (x.testBit ∘ Nat.succ) = (List.range n).map (x / 2).testBit := by
      simp [Function.comp_def, Nat.testBit_succ]
    rw [List.range_succ_eq_map, List.map_cons, List.map_map, List.foldr_cons, htail, ih, Nat.toNat_testBit,
      pow_succ', Nat.mod_mul, pow_zero, Nat.div_one]

theorem byteOfBits_getLsbD (b : Byte) : byteOfBits ((List.range 8).map (fun i => b.getLsbD i)) = b := by
  have hsum := foldr_testBit 8 b.toNat
  rw [Nat.mod_eq_of_lt b.isLt] at hsum
  calc byteOfBits ((List.range 8).map (fun i => b.getLsbD i))
    _ = BitVec.ofNat 8 b.toNat := congrArg (BitVec.ofNat 8) hsum
    _ = b := by rw [BitVec.ofNat_toNat, BitVec.setWidth_eq]

/-- Bit-time `i + 1` of a frame is data bit `i`. -/
theorem frame_getElem?_data (b : Byte) (i : Fin 8) : (frame b)[i.val + 1]? = some (b.getLsbD i) := by
  simp [frame, List.getElem?_append]

/-- A frame passes the three tests of `unframe` whatever its byte is. -/
theorem unframe_frame (b : Byte) : unframe (frame b) = some b :=
  congrArg some (byteOfBits_getLsbD b)

/-- Of ten bits the last is the stop bit. -/
theorem unframe_of_stop_low {bits : List Bool} (h : bits[9]? = some false) : unframe bits = none := by
  rw [unframe, if_neg]
  intro hframe
  simp only [Bool.and_eq_true, decide_eq_true_eq] at hframe
  obtain ⟨⟨hlen, -⟩, hstop⟩ := hframe
  rw [List.getLast?_eq_getElem?, hlen, h] at hstop
  cases hstop

/-- Settles O53: the frame bit by bit, and its two readings. -/
theorem frameRoundTrip : Obligations.FrameRoundTrip := by
  unfold Obligations.FrameRoundTrip
  exact ⟨fun b => ⟨rfl, rfl, rfl, frame_getElem?_data b, unframe_frame b⟩, fun _ => unframe_of_stop_low⟩

end Sys2Proof.Machine

namespace Sys2Proof.Machine

/-! ## Exceptions: the `fault` register (spec/60_exceptions.md R153, R154, R157) -/

section
variable {i : Instr} {s t : State}

/-- Of the steps a command can take, one raises a fault and the others leave the `fault` register. -/
theorem CommandStep.raises_or_keeps_fault (h : CommandStep s i t) : (∃ c, t = raiseFault c s) ∨ t.fault = s.fault := by
  cases h
  case fault c => exact .inl ⟨c, rfl⟩
  all_goals exact .inr (by simp)

/-- A command that changes the `fault` register found it clear and changes nothing else. -/
theorem exec_fault_changed (h : exec i s = .next t) (hne : t.fault ≠ s.fault) :
    s.fault = none ∧ t = { s with fault := t.fault } := by
  obtain ⟨c, rfl⟩ | hkept := (exec_next h).raises_or_keeps_fault
  · by_cases hs : s.fault = none
    · exact ⟨hs, rfl⟩
    · rw [raiseFault_of_some hs] at hne
      exact absurd rfl hne
  · exact absurd hkept hne

/-- A recorded fault disables the three agents that test it. -/
theorem enabled_of_faulted (hs : s.fault ≠ none) :
    enabled .normal s = false ∧ enabled .rxh s = false ∧ enabled .txh s = false := by
  obtain ⟨c, hc⟩ := Option.ne_none_iff_exists'.mp hs
  simp [enabled, irqRx, irqTx, hc]

/-- With a fault recorded NORMAL has no turn, and no other agent writes the `fault` register. -/
theorem step_keeps_recorded_fault (hs : s.fault ≠ none) (h : step s = .next t) : t.fault = s.fault := by
  obtain ⟨a, turns, round, -, he, ha⟩ := step_next_turns h
  obtain ⟨hnormal, -⟩ := enabled_of_faulted hs
  have hne : a ≠ .normal := by
    rintro rfl
    simp [hnormal] at he
  obtain ⟨-, hfault⟩ := agentStep_pc_fault hne ha
  exact hfault

/-- The FAULT output, code by code (R154). -/
theorem faultOutput_eq (s : State) :
    faultOutput s = (if s.fault = some .uninit then 1#3 else if s.fault = some .reinit then 2#3
      else if s.fault = some .initGie then 3#3 else if s.fault = some .cbinitLive then 4#3
      else if s.fault = some .lineCap then 5#3 else if s.fault = some .illegal then 6#3 else 0#3) := by
  unfold faultOutput
  cases s.fault with
  | none => rfl
  | some c => cases c <;> rfl

end

/-- Settles O21: a command changes the register only by raising, and once it is set only the line, which keeps it, steps. -/
theorem raisingAFaultChangesNothingElse : Obligations.RaisingAFaultChangesNothingElse := by
  unfold Obligations.RaisingAFaultChangesNothingElse
  exact ⟨fun _ _ _ => exec_fault_changed, fun _ _ => step_keeps_recorded_fault, fun _ => enabled_of_faulted,
    faultOutput_eq⟩

/-- Settles O22: an enabled handler or line agent completes its step, and none of the four writes the `fault` register. -/
theorem handlersAndLineNeverFault : Obligations.HandlersAndLineNeverFault := by
  unfold Obligations.HandlersAndLineNeverFault
  rintro s a ⟨hbuf, -⟩ ha he
  obtain ⟨t, ht⟩ := agentStep_total hbuf ha he
  obtain ⟨-, hfault⟩ := agentStep_pc_fault ha ht
  exact ⟨t, ht, hfault⟩

/-! ## Exceptions: the cases of each handler (spec/60_exceptions.md R164, R165, R168) -/

section
variable {b : Byte} {q : Buffer} {s : State}

theorem rxh_of_full (hf : s.rx.full = true) : rxh s = .next { s with rxc := false } := by
  simp only [rxh, hardwareRead, push_bufferFull_iff.mpr hf]

theorem rxh_of_ok (hq : s.rx.push s.params.capacity s.rxData = .ok q) : rxh s = .next { s with
    rx := q, rxc := false, evt := s.evt ++ (if s.rx.evEn then [.receive] else []) } := by
  simp only [rxh, hardwareRead, hq]
  by_cases he : s.rx.evEn = true
  · simp [he, emitEvt]
  · simp [he]

theorem txh_of_empty (hc : s.tx.count = 0) : txh s = .next { s with txIntEn := false } := by
  simp only [txh, pop_bufferEmpty_iff.mpr hc]

/-- The disarming and the event of a state whose Transmit buffer may have drained, field by field. -/
theorem txDrained_eq (s : State) : txDrained s = { s with
    txIntEn := s.txIntEn && decide (s.tx.count ≠ 0)
    evt := s.evt ++ (if s.tx.count = 0 ∧ s.tx.evEn = true then [.transmit] else []) } := by
  unfold txDrained
  by_cases hc : s.tx.count = 0
  · by_cases he : s.tx.evEn = true
    · simp [hc, he, emitEvt]
    · simp [hc, he]
  · simp [hc]

theorem txh_of_ok (hd : s.dre = true) (hq : s.tx.pop s.params.capacity = .ok b q) : txh s = .next { s with
    tx := q, txData := b, dre := false, txIntEn := s.txIntEn && decide (q.count ≠ 0)
    evt := s.evt ++ (if q.count = 0 ∧ q.evEn = true then [.transmit] else []) } := by
  simp only [txh, hq, hardwareWrite_of_dre_true b (s := { s with tx := q }) hd, txDrained_eq]

/-- Under the invariant a buffer that is not full takes the byte. -/
theorem push_of_not_full {cap : Nat} (hinv : Buffer.Inv cap q) (hf : q.full = false) (b : Byte) :
    ∃ q', q.push cap b = .ok q' := by
  obtain ⟨-, -, hw, -⟩ := hinv
  exact ⟨_, push_ok_iff.mpr ⟨hf, hw, rfl⟩⟩

end

/-- Settles O47: a full buffer drops the byte; under the invariant any other takes it. -/
theorem receiveHandlerPushesTheByte : Obligations.ReceiveHandlerPushesTheByte := by
  unfold Obligations.ReceiveHandlerPushesTheByte
  refine fun s hinv => ⟨rxh_of_full, fun hf => ?_⟩
  obtain ⟨q, hq⟩ := push_of_not_full hinv hf s.rxData
  obtain ⟨hwc, hcount, hfull⟩ := push_registers hinv hq
  obtain ⟨hrc, hev⟩ := push_frame hq
  exact ⟨_, rxh_of_ok hq, push_contents hinv hq, hrc, hev, hwc, hcount, hfull, fun j hj => push_read_other hq hj, rfl⟩

/-- Settles O48: an empty buffer only disarms; a pop that leaves no byte is that of the last one. -/
theorem transmitHandlerSendsOrDisarms : Obligations.TransmitHandlerSendsOrDisarms := by
  unfold Obligations.TransmitHandlerSendsOrDisarms
  refine fun s hinv hd => ⟨txh_of_empty, fun hpos => ?_⟩
  obtain ⟨b, hq⟩ := pop_of_count_pos hinv hpos
  have hdrained : s.tx.count - 1 = 0 ↔ s.tx.count = 1 := by omega
  refine ⟨_, b, txh_of_ok hd hq, pop_contents hq, ?_⟩
  simp only [ne_eq, hdrained]

/-! ## Exceptions: the order of the two handlers (spec/60_exceptions.md R163) -/

section
variable {s : State}

/-- What RXH does is decided by the Receive buffer and the received byte: from every state that has them it writes the
same buffer and adds the same events. -/
theorem rxh_of_receive_side (hinv : Buffer.Inv s.params.capacity s.rx) : ∃ q es, ∀ u : State,
    u.params = s.params → u.rx = s.rx → u.rxData = s.rxData →
      rxh u = .next { u with rx := q, rxc := false, evt := u.evt ++ es } := by
  obtain ⟨q, hq⟩ | hfull := push_total (b := s.rxData) hinv
  · refine ⟨q, if s.rx.evEn then [.receive] else [], fun u hp hrx hdata => ?_⟩
    rw [rxh_of_ok (q := q) (by rw [hp, hrx, hdata, hq]), hrx]
  · refine ⟨s.rx, [], fun u _ hrx _ => ?_⟩
    rw [rxh_of_full (hrx ▸ push_bufferFull_iff.mp hfull), ← hrx, List.append_nil]

/-- What TXH does with an empty data register is decided by the Transmit buffer and the registers of its side. -/
theorem txh_of_transmit_side (hinv : Buffer.Inv s.params.capacity s.tx) (hd : s.dre = true) : ∃ q b d en es,
    ∀ u : State, u.params = s.params → u.tx = s.tx → u.dre = s.dre → u.txData = s.txData → u.txIntEn = s.txIntEn →
      txh u = .next { u with tx := q, txData := b, dre := d, txIntEn := en, evt := u.evt ++ es } := by
  obtain ⟨b, q, hq⟩ | hempty := pop_total hinv
  · refine ⟨q, b, false, s.txIntEn && decide (q.count ≠ 0),
      if q.count = 0 ∧ q.evEn = true then [.transmit] else [], fun u hp htx hdre _ hen => ?_⟩
    rw [txh_of_ok (q := q) (b := b) (hdre.trans hd) (by rw [hp, htx, hq]), hen]
  · refine ⟨s.tx, s.txData, s.dre, false, [], fun u _ htx hdre hdata _ => ?_⟩
    rw [txh_of_empty (htx ▸ pop_bufferEmpty_iff.mp hempty), ← htx, ← hdre, ← hdata, List.append_nil]

end

/-- Settles O52: neither handler writes what the other reads, and both only append to `evt`. -/
theorem handlersCommute : Obligations.HandlersCommute := by
  unfold Obligations.HandlersCommute
  rintro s ⟨⟨-, hrx, htx⟩, -⟩ her het
  obtain ⟨-, -, htxh, -⟩ := enableConditions s
  obtain ⟨-, -, hd, -⟩ := htxh.mp het
  obtain ⟨q, es, hr⟩ := rxh_of_receive_side hrx
  obtain ⟨q', b, d, en, es', ht⟩ := txh_of_transmit_side htx hd
  refine ⟨_, _, _, _, hr s rfl rfl rfl, het, ht _ rfl rfl rfl rfl rfl, ht s rfl rfl rfl rfl rfl, her,
    hr _ rfl rfl rfl, rfl, ?_⟩
  show ((s.evt ++ es) ++ es').Perm ((s.evt ++ es') ++ es)
  rw [List.append_assoc, List.append_assoc]
  exact List.perm_append_comm.append_left s.evt

end Sys2Proof.Machine

namespace Sys2Proof.Machine

/-! ## Reset and hazards: how a run ends (spec/70_reset_and_hazards.md R196) -/

section
variable {s : State}

/-- The list of R196. -/
theorem goodEnd_iff : goodEnd s = true ↔
    s.fault = none ∧ s.pc = s.prog.length ∧ s.ustep = .idle ∧ s.rxc = false ∧ s.txIntEn = false ∧ s.dre = true ∧
      (s.arrivals = [] ∨ s.rxen = false) := by
  simp [goodEnd, and_assoc]

theorem runOver_of_fault {c : FaultCode} (h : s.fault = some c) : runOver s = .halted c := by
  rw [runOver, h]

theorem runOver_of_goodEnd (h : goodEnd s = true) : runOver s = .endOfRun := by
  obtain ⟨hfault, -⟩ := goodEnd_iff.mp h
  simp [runOver, hfault, h]

theorem runOver_of_not_goodEnd (hfault : s.fault = none) (h : goodEnd s = false) : runOver s = .stuck := by
  simp [runOver, hfault, h]

/-- With no agent enabled no turn is taken (O10), and the step answers why the run is over. -/
theorem step_of_none_enabled (h : ∀ a, enabled a s = false) : step s = .fault (runOver s) := by
  rw [step, (runIsOverIffNoAgentIsEnabled s).mpr h]

/-- Each agent's enable condition (O11) asks for something the list of R196 excludes. -/
theorem none_enabled_of_goodEnd (h : goodEnd s = true) (a : Agent) : enabled a s = false := by
  obtain ⟨-, hpc, -, hrxc, htie, hdre, hline⟩ := goodEnd_iff.mp h
  obtain ⟨hnormal, hrxh, htxh, hwireRx, hwireTx⟩ := enableConditions s
  refine Bool.eq_false_iff.mpr fun he => ?_
  cases a with
  | normal =>
    obtain ⟨-, hlt⟩ := hnormal.mp he
    exact hlt.ne hpc
  | rxh =>
    obtain ⟨-, -, hset, -⟩ := hrxh.mp he
    simp [hrxc] at hset
  | txh =>
    obtain ⟨-, hset, -, -⟩ := htxh.mp he
    simp [htie] at hset
  | wireRx =>
    obtain ⟨hset, hne⟩ := hwireRx.mp he
    obtain hnil | hoff := hline
    · exact hne hnil
    · simp [hoff] at hset
  | wireTx =>
    have hclear := hwireTx.mp he
    simp [hdre] at hclear

theorem fetch_of_end (hpc : s.pc = s.prog.length) : fetch s = .error .noWord := by
  simp [fetch, hpc]

/-- Past the last command NORMAL is at a command boundary: any other micro-step needs a command at `pc`. -/
theorem ustep_idle_of_end (hp : progressOk s = true) (hpc : s.pc = s.prog.length) : s.ustep = .idle := by
  have hend := fetch_of_end hpc
  cases hu : s.ustep with
  | idle => rfl
  | w1 => simp [progressOk_w1_iff hu, hend] at hp
  | w2 => simp [progressOk_w2_iff hu, hend] at hp
  | l2 => simp [progressOk_l2_iff hu, hend] at hp

/-- A received byte waits only after INITIALIZE, which unmasked its interrupt (R23, R138). -/
theorem State.GlueInv.rxIntEn_of_rxc (h : s.GlueInv) (hrxc : s.rxc = true) : s.rxIntEn = true := by
  obtain ⟨hri, hoff, -, -, hwait⟩ := h
  by_contra hmask
  obtain ⟨hrxen, -⟩ := hoff (by simpa [hri] using hmask)
  simp [hwait hrxc] at hrxen

/-- Where no agent can step and no fault is recorded, NORMAL has executed every command, the data register is empty and the
line has nothing to deliver: of the list of R196 only the two interrupts can fail. -/
theorem goodEnd_iff_of_none_enabled (hs : s.Inv) (hfault : s.fault = none) (hnone : ∀ a, enabled a s = false) :
    goodEnd s = true ↔ s.rxc = false ∧ s.txIntEn = false := by
  obtain ⟨-, -, hle, hprog⟩ := hs
  obtain ⟨hnormal, -, -, hwireRx, hwireTx⟩ := enableConditions s
  simp only [hnone, Bool.false_eq_true, false_iff] at hnormal hwireRx hwireTx
  have hpc : s.pc = s.prog.length := hle.antisymm (not_lt.mp fun hlt => hnormal ⟨hfault, hlt⟩)
  have hline : s.arrivals = [] ∨ s.rxen = false := by
    cases hrx : s.rxen
    · exact .inr rfl
    · exact .inl (not_ne_iff.mp fun hne => hwireRx ⟨hrx, hne⟩)
  have hdre : s.dre = true := by simpa using hwireTx
  simp [goodEnd_iff, hfault, hpc, ustep_idle_of_end hprog hpc, hline, hdre]

/-- A handler whose interrupt is pending has no step only while `gie` masks it (R161, R162). -/
theorem gie_false_of_pending (hs : s.GlueInv) (hfault : s.fault = none) (hnone : ∀ a, enabled a s = false)
    (hpending : s.rxc = true ∨ s.txIntEn = true) : s.gie = false := by
  obtain ⟨-, hrxh, htxh, -, hwireTx⟩ := enableConditions s
  simp only [hnone, Bool.false_eq_true, false_iff] at hrxh htxh hwireTx
  refine Bool.eq_false_iff.mpr fun hgie => ?_
  obtain hrxc | htie := hpending
  · exact hrxh ⟨hgie, hs.rxIntEn_of_rxc hrxc, hrxc, hfault⟩
  · exact htxh ⟨hgie, htie, by simpa using hwireTx, hfault⟩

end

/-- Settles O19: the list of R196 leaves no agent a step; of a state without one it can miss the two interrupts only,
which `gie` then masks; a fault is the reason the step answers. -/
theorem runEndsWellOrStuckOrHalted : Obligations.RunEndsWellOrStuckOrHalted := by
  unfold Obligations.RunEndsWellOrStuckOrHalted
  refine ⟨fun s hgood => ?good, fun s hs hfault hnone => ?noFault, fun s c hfault hnone => ?halted⟩
  case good => rw [step_of_none_enabled (none_enabled_of_goodEnd hgood), runOver_of_goodEnd hgood]
  case noFault =>
    rw [step_of_none_enabled hnone]
    cases hgood : goodEnd s with
    | true => exact .inl ⟨rfl, by rw [runOver_of_goodEnd hgood]⟩
    | false =>
      have hpending : s.rxc = true ∨ s.txIntEn = true := by
        have := (goodEnd_iff_of_none_enabled hs hfault hnone).not.mp (by simp [hgood])
        simpa [or_iff_not_imp_left] using this
      obtain ⟨-, hglue, -⟩ := hs
      exact .inr ⟨rfl, gie_false_of_pending hglue hfault hnone hpending, hpending, by
        rw [runOver_of_not_goodEnd hfault hgood]⟩
  case halted =>
    refine ⟨Bool.eq_false_iff.mpr fun hgood => ?_, by rw [step_of_none_enabled hnone, runOver_of_fault hfault]⟩
    obtain ⟨hclear, -⟩ := goodEnd_iff.mp hgood
    simp [hfault] at hclear

end Sys2Proof.Machine
